-- ==== Sys2Proof/Word.lean ====
section
/-! DEFINITION. The bit-field types of the block (10_state R24 to R28, 30_encoding R81, R82) and the byte
sequences it reads and writes (00_scope R13). -/

namespace Sys2Proof

/-- A byte: an 8-bit value (R13). -/
abbrev Byte := BitVec 8

/-- NodeId: 6 bits (R24). -/
abbrev NodeId := BitVec 6

/-- TaskId: 5 bits (R25). -/
abbrev TaskId := BitVec 5

/-- ADDR11, the packed Address: 11 bits (R26, R81). -/
abbrev Addr11 := BitVec 11

/-- MessageId: 10 bits (R27). -/
abbrev MessageId := BitVec 10

/-- HDR32, the routing header: 32 bits (R28, R82). -/
abbrev Hdr32 := BitVec 32

/-- One element of a buffer the requester holds: a byte, or `none` for a byte that is UNSPECIFIED
(R14; R230: a fresh payload byte until it is written). -/
abbrev ByteCell := Option Byte

/-- A byte sequence the requester holds (R13, R40): element `i` is the byte at offset `i`, and the length is
part of the value. -/
abbrev Buffer := List ByteCell

end Sys2Proof
end

