-- ==== Sys2Proof/Config.lean ====
section
/-! DEFINITION. What is fixed for one implementation and never changes while it runs: the reserved identities
(40_address_codec R123), the parameters the source leaves open (00_scope R6), the bound of the Message type, and
the free values that stand for UNSPECIFIED (00_scope R14). The constants with no body are free: nothing can be
proved of their value. -/

namespace Sys2Proof

/-- PAYLOAD_CAP, the bound of a Message's payload (R6, R29, D8). -/
def Config.payloadCap : Nat := 247

/-- NODE_MASTER (R5, R123). -/
def Config.nodeMaster : NodeId := 0#6

/-- NODE_NETWORK_BROADCAST, all ones (R5, R123). -/
def Config.nodeNetworkBroadcast : NodeId := 63#6

/-- Which of the 62 values 1 to 62 NODE_FIRST_SLAVE has: open (R6, D13). -/
opaque Config.nodeFirstSlaveIndex : Fin 62

/-- NODE_FIRST_SLAVE: any NodeId strictly between MASTER and NETWORK_BROADCAST (R6, R123, D13). No operation reads it. -/
def Config.nodeFirstSlave : NodeId := BitVec.ofNat 6 (Config.nodeFirstSlaveIndex.val + 1)

/-- TASK_BROADCAST: any TaskId (R6, R123, D14). -/
opaque Config.taskBroadcast : TaskId

/-- TASK_OFFSET_BASE: any natural number below 32 (R6, D15). -/
opaque Config.taskOffsetBase : Fin 32

/-- RX_CAP, the capacity of SC.BUF: open; no rule depends on its value, and the model's decoder takes an input of
any length (R6, D20; log 10). -/
opaque Config.rxCap : Nat

/-- CRC_COVERS_LEN's default (R6, R88, C1, D6). -/
def Config.crcCoversLenDefault : Bool := false

/-- Which function the checksum unit computes: the parameter `crc32` of R7, named by plain data (log 7). -/
inductive ChecksumUnit where
  /-- The default instantiation, CRC-32/ISO-HDLC (60_exceptions R263, D12, G1). -/
  | isoHdlc
  /-- Any other function: `Config.otherCrc32 k`, of which nothing can be proved but that it is a function of the
  bytes (R7). -/
  | other (k : Nat)
deriving DecidableEq, Repr

/-- A checksum function other than the default one: any pure total function of the bytes (R7). -/
opaque Config.otherCrc32 (k : Nat) : List Byte → BitVec 32

/-- The static parameters that operations read (R6, R39). They are an argument of the model, carried beside its
state and written by no step (log 4, DESIGN CHOICE). -/
structure Params where
  /-- TASK_BROADCAST, the TaskId that TASK_FROM_OFFSET never produces (R124). -/
  taskBroadcast  : TaskId
  /-- TASK_OFFSET_BASE, below 32 (R124). -/
  taskOffsetBase : Fin 32
  /-- CRC_COVERS_LEN, which span the checksum covers (R88). -/
  crcCoversLen   : Bool
  /-- The checksum function, `crc32` of R7 (D12). -/
  crc            : ChecksumUnit
deriving DecidableEq, Repr

/-- The parameters of an instance nobody has configured: the open constants, and CRC_COVERS_LEN and
the checksum function at their defaults. -/
def Config.params : Params :=
  { taskBroadcast := Config.taskBroadcast, taskOffsetBase := Config.taskOffsetBase,
    crcCoversLen := Config.crcCoversLenDefault, crc := .isoHdlc }

/-- The value draw `k` finds in the UNSPECIFIED byte at offset `i` of the buffer it reads (log 2). -/
opaque Config.freeByte (k i : Nat) : Byte

/-- The length draw `k` finds for a payload that is UNSPECIFIED as a whole: at most PAYLOAD_CAP (R29, R210; log 2). -/
opaque Config.freeLength (k : Nat) : Fin 248

/-- The outcome of comparing a Message that has UNSPECIFIED fields (R237; log 2). -/
opaque Config.freeBool (k : Nat) : Bool

/-- VALID of a Message that is UNSPECIFIED as a whole (U4; log 1, 2). -/
opaque Config.freeValid (k : Nat) : Bool

/-- The length of the frame of a Message whose payload is UNSPECIFIED as a whole (U4; log 1, 2). -/
opaque Config.freeFrameLength (k : Nat) : Nat

/-- SC.STX at the start of a scan (R43, R201; log 2). -/
opaque Config.freeScStx (k : Nat) : Nat

/-- SC.LEN at the start of a scan (R43, R201; log 2). -/
opaque Config.freeScLen (k : Nat) : Byte

end Sys2Proof
end

