-- ==== Sys2Proof/Syntax.lean ====
section
/-! DEFINITION. The values a request carries (10_state R22, R26, R29, R84) and the block's operations, one
constructor of `Instr` per row of the operation select table (30_encoding R100), each with the operands its own
rule names, in the source's argument order. -/

namespace Sys2Proof

/-- The eight scalar types (R84, R150). -/
inductive ScalarType where
  | u8 | i8 | u16 | i16 | u32 | i32 | u64 | i64
deriving DecidableEq, Repr

/-- An Address as the pair (TASK, NODE) (R26). -/
structure Address where
  task : TaskId
  node : NodeId
deriving DecidableEq, Repr

/-- A Message's payload: a byte sequence of at most PAYLOAD_CAP bytes (R29). -/
abbrev Payload := { cells : Buffer // cells.length ≤ Config.payloadCap }

/-- A Message (R29). A field that is `none` is UNSPECIFIED: an Address before it is set (R170, R230), or any of
the four fields of the invalid Message (R210). `payload = none` leaves the length UNSPECIFIED too. -/
structure Message where
  msgId   : Option MessageId
  src     : Option Address
  dst     : Option Address
  payload : Option Payload
  valid   : Bool
deriving DecidableEq, Repr

/-- One operation with its operands (R100, R105). A scalar VAL is an integer (R12), wider than its port;
`Instr.wf` says when it is in the operation's type (R101). -/
inductive Instr where
  /-- 0x00 (R120). -/
  | addrPack (task : TaskId) (node : NodeId)
  /-- 0x01 (R121). -/
  | addrUnpack (addr : Addr11)
  /-- 0x02 (R124). -/
  | taskFromOffset (n : BitVec 5)
  /-- 0x10 (R140). -/
  | hdrPack (src dst : Addr11) (msgId : MessageId)
  /-- 0x11 (R141). -/
  | hdrUnpack (hdr : Hdr32)
  /-- 0x20 (R152). -/
  | wrU8 (buf : Buffer) (off : Nat) (val : Int)
  /-- 0x21 (R153). -/
  | wrI8 (buf : Buffer) (off : Nat) (val : Int)
  /-- 0x22 (R154). -/
  | wrU16 (buf : Buffer) (off : Nat) (val : Int)
  /-- 0x23 (R155). -/
  | wrI16 (buf : Buffer) (off : Nat) (val : Int)
  /-- 0x24 (R156). -/
  | wrU32 (buf : Buffer) (off : Nat) (val : Int)
  /-- 0x25 (R157). -/
  | wrI32 (buf : Buffer) (off : Nat) (val : Int)
  /-- 0x26 (R158). -/
  | wrU64 (buf : Buffer) (off : Nat) (val : Int)
  /-- 0x27 (R159). -/
  | wrI64 (buf : Buffer) (off : Nat) (val : Int)
  /-- 0x28 (R160). -/
  | rdU8 (buf : Buffer) (off : Nat)
  /-- 0x29 (R161). -/
  | rdI8 (buf : Buffer) (off : Nat)
  /-- 0x2A (R162). -/
  | rdU16 (buf : Buffer) (off : Nat)
  /-- 0x2B (R163). -/
  | rdI16 (buf : Buffer) (off : Nat)
  /-- 0x2C (R164). -/
  | rdU32 (buf : Buffer) (off : Nat)
  /-- 0x2D (R165). -/
  | rdI32 (buf : Buffer) (off : Nat)
  /-- 0x2E (R166). -/
  | rdU64 (buf : Buffer) (off : Nat)
  /-- 0x2F (R167). -/
  | rdI64 (buf : Buffer) (off : Nat)
  /-- 0x30 (R170): the fields are pairs (type, value). -/
  | msgEncode (msgId : MessageId) (fields : List (ScalarType × Int))
  /-- 0x31 (R172). -/
  | msgDecode (msg : Message) (types : List ScalarType)
  /-- 0x40 (R190). -/
  | frameEnc (msg : Message)
  /-- 0x41 (R200). -/
  | frameDec (bytes : Buffer)
  /-- 0x50 (R230). -/
  | msgNew (msgId : MessageId) (length : Nat)
  /-- 0x51 (R231). -/
  | msgSetSrc (msg : Message) (addr : Address)
  /-- 0x52 (R232). -/
  | msgSetDst (msg : Message) (addr : Address)
  /-- 0x53 (R233). -/
  | msgGetPayload (msg : Message)
  /-- 0x54 (R234). -/
  | msgSetPayload (msg : Message) (buf : Buffer)
  /-- 0x55 (R235). -/
  | msgGetLength (msg : Message)
  /-- 0x56 (R237). -/
  | msgEq (a b : Message)
deriving DecidableEq, Repr

/-- The operand ports of a request (R22, R101, D5): one port per operand name of the opcode table, each exactly as
wide as its field. Every port carries a value; an operation looks only at the ports its rule names. A type list
carries the 3-bit type codes TC (R84). -/
structure Operands where
  task    : TaskId
  node    : NodeId
  addr    : Addr11
  n       : BitVec 5
  src     : Addr11
  dst     : Addr11
  msgId   : MessageId
  hdr     : Hdr32
  buf     : Buffer
  off     : Nat
  val     : Int
  fields  : List (BitVec 3 × Int)
  msg     : Message
  types   : List (BitVec 3)
  bytes   : Buffer
  length  : Nat
  /-- The ADDR operand of the two setters, an Address pair (R231, R232). -/
  pair    : Address
  a       : Message
  b       : Message
deriving DecidableEq, Repr

/-- A request: the operation select and the operand ports (R22). -/
structure Request where
  op       : BitVec 8
  operands : Operands
deriving DecidableEq, Repr

end Sys2Proof
end

