-- ==== Sys2Proof/Machine/Operands.lean ====
section
/-! DEFINITION. The operand forms: the scalar types' widths, ranges, byte order and sign extension
(00_scope R12, R13; 20_memory R53; 42_scalar_codec R150, R151), access to byte sequences (00_scope R14), the
bit fields of ADDR11 and HDR32 (30_encoding R81, R82, R85), and what an operation finds in an operand that is
UNSPECIFIED. -/

namespace Sys2Proof.Machine

/-! ### Scalars -/

/-- The width n in bytes (R84). -/
def scalarWidth : ScalarType → Nat
  | .u8 | .i8 => 1
  | .u16 | .i16 => 2
  | .u32 | .i32 => 4
  | .u64 | .i64 => 8

/-- Whether the type is signed (R84). -/
def scalarSigned : ScalarType → Bool
  | .i8 | .i16 | .i32 | .i64 => true
  | .u8 | .u16 | .u32 | .u64 => false

/-- Whether `v` is a value of type `t`: [−2^(8n−1), 2^(8n−1)) signed, [0, 2^(8n)) unsigned (R150). -/
def scalarInRange (t : ScalarType) (v : Int) : Bool :=
  if scalarSigned t then
    decide (-(2 ^ (8 * scalarWidth t - 1) : Int) ≤ v) && decide (v < (2 ^ (8 * scalarWidth t - 1) : Int))
  else
    decide (0 ≤ v) && decide (v < (2 ^ (8 * scalarWidth t) : Int))

/-- `le_n(u)`: n bytes, least significant first (R13, R53). -/
def leBytes : Nat → Nat → List Byte
  | 0, _ => []
  | n + 1, u => BitVec.ofNat 8 u :: leBytes n (u / 256)

/-- `from_le(S)` (R13). -/
def fromLe : List Byte → Nat
  | [] => 0
  | b :: bs => b.toNat + 256 * fromLe bs

/-- The bit pattern of `v` at width n bytes: `v mod 2^(8n)` (R12, R151). -/
def bitPattern (n : Nat) (v : Int) : Nat := (v % (2 ^ (8 * n) : Int)).toNat

/-- `sext` at width n bytes (R12): u below the sign bit's weight, else u − 2^(8n). -/
def signExtend (n u : Nat) : Int :=
  if u < 2 ^ (8 * n - 1) then (u : Int) else (u : Int) - (2 ^ (8 * n) : Int)

/-- The n bytes a value of type `t` occupies (R84). -/
def scalarBytes (t : ScalarType) (v : Int) : List Byte := leBytes (scalarWidth t) (bitPattern (scalarWidth t) v)

/-- The value of type `t` that n bytes spell (R85, R151). -/
def scalarValue (t : ScalarType) (bs : List Byte) : Int :=
  if scalarSigned t then signExtend (scalarWidth t) (fromLe bs) else (fromLe bs : Int)

/-- The sum of the widths of a type list (R146). -/
def totalWidth : List ScalarType → Nat
  | [] => 0
  | t :: ts => scalarWidth t + totalWidth ts

/-- The concatenation of the fields' bytes, in order, with no padding (R170). -/
def fieldBytes : List (ScalarType × Int) → List Byte
  | [] => []
  | (t, v) :: fs => scalarBytes t v ++ fieldBytes fs

/-- Whether every value of a field list is in its own type (R101). -/
def fieldsInRange : List (ScalarType × Int) → Bool
  | [] => true
  | (t, v) :: fs => scalarInRange t v && fieldsInRange fs

/-- The values a type list reads from the front of a byte sequence, in order (R172). -/
def fieldValues : List ScalarType → List Byte → List Int
  | [], _ => []
  | t :: ts, bs => scalarValue t (bs.take (scalarWidth t)) :: fieldValues ts (bs.drop (scalarWidth t))

/-! ### Byte sequences -/

/-- `B[lo .. hi)` (R13); also MemRead (R14). -/
def slice {α : Type} (B : List α) (lo hi : Nat) : List α := (B.drop lo).take (hi - lo)

/-- MemWrite: `buf` with the elements from `off` on replaced by those of `S` (R14). -/
def memWrite (buf : Buffer) (off : Nat) (S : Buffer) : Buffer := buf.take off ++ S ++ buf.drop (off + S.length)

/-- A byte sequence all of whose bytes are specified. -/
def known (bs : List Byte) : Buffer := bs.map some

/-- The bytes of a buffer if every one is specified. -/
def allKnown : Buffer → Option (List Byte)
  | [] => some []
  | none :: _ => none
  | some b :: cs => (allKnown cs).map (b :: ·)

/-- What draw `k` reads in a buffer whose first element stands at offset `i`: each UNSPECIFIED byte is a free
value (log 2). -/
def resolveFrom (k : Nat) : Nat → Buffer → List Byte
  | _, [] => []
  | i, c :: cs => c.getD (Config.freeByte k i) :: resolveFrom k (i + 1) cs

/-- What draw `k` reads in a whole buffer. -/
def resolve (k : Nat) (buf : Buffer) : List Byte := resolveFrom k 0 buf

/-! ### Addresses and headers -/

/-- ADDR11 from its fields: `(NODE << 5) | TASK` (R81, R120). -/
def packAddr (task : TaskId) (node : NodeId) : Addr11 := (node.setWidth 11 <<< 5) ||| task.setWidth 11

/-- TASK = a[4:0] (R85, R121). -/
def addrTask (a : Addr11) : TaskId := a.extractLsb' 0 5

/-- NODE = a[10:5] (R85, R121). -/
def addrNode (a : Addr11) : NodeId := a.extractLsb' 5 6

/-- HDR32 from its fields: `(MSGID << 22) | (DST << 11) | SRC` (R82, R140). -/
def packHeader (src dst : Addr11) (msgId : MessageId) : Hdr32 :=
  (msgId.setWidth 32 <<< 22) ||| (dst.setWidth 32 <<< 11) ||| src.setWidth 32

/-- SRC = h[10:0] (R85, R141). -/
def headerSrc (h : Hdr32) : Addr11 := h.extractLsb' 0 11

/-- DST = h[21:11] (R85, R141). -/
def headerDst (h : Hdr32) : Addr11 := h.extractLsb' 11 11

/-- MSGID = h[31:22] (R85, R141). -/
def headerMsgId (h : Hdr32) : MessageId := h.extractLsb' 22 10

/-- An Address packed (R26). -/
def packAddress (a : Address) : Addr11 := packAddr a.task a.node

/-- The Address a packed form stands for (R26, R121). -/
def unpackAddress (a : Addr11) : Address := { task := addrTask a, node := addrNode a }

/-! ### Messages -/

/-- The payload an operation works on: the Message's own, or, when it is UNSPECIFIED as a whole (R210), one of a
free length whose bytes are all UNSPECIFIED (log 2). -/
def payloadFor (k : Nat) (m : Message) : Payload :=
  match m.payload with
  | some p => p
  | none => ⟨List.replicate (Config.freeLength k).val none, by
      rw [List.length_replicate]; exact Nat.le_of_lt_succ (Config.freeLength k).isLt⟩

/-- A Message that is UNSPECIFIED as a whole, VALID included (R14, U4; log 1, 2). -/
def unspecifiedMessage (k : Nat) : Message :=
  { msgId := none, src := none, dst := none, payload := none, valid := Config.freeValid k }

/-- The Message an operation that replaces a field gives, `f` saying which. Given a Message whose payload is
UNSPECIFIED as a whole, which is the invalid Message of R210, the whole result is UNSPECIFIED (U4; log 1). VALID is
not tested. -/
def updateMessage (k : Nat) (m : Message) (f : Message → Message) : Message :=
  match m.payload with
  | some _ => f m
  | none => unspecifiedMessage k

/-- The four components MSG_EQ compares, when all of them are specified (R237). -/
def messageContent (m : Message) : Option (MessageId × Address × Address × List Byte) :=
  match m.msgId, m.src, m.dst, m.payload with
  | some i, some s, some d, some p => (allKnown p.val).map fun bs => (i, s, d, bs)
  | _, _, _, _ => none

end Sys2Proof.Machine
end

