-- ==== Sys2Proof/WellFormed.lean ====
section
/-! DEFINITION. Which operations have every operand in its domain (30_encoding R101, 60_exceptions R253). The
ports of NodeId, TaskId, ADDR11, MessageId, HDR32, N and the Message's payload bound are exactly as wide as their
fields, so only a scalar VAL, an integer here, can lie outside its type. -/

namespace Sys2Proof

/-- Every operand of the operation is in its domain. -/
def Instr.wf : Instr → Bool
  | .addrPack _ _ => true
  | .addrUnpack _ => true
  | .taskFromOffset _ => true
  | .hdrPack _ _ _ => true
  | .hdrUnpack _ => true
  | .wrU8 _ _ v => Machine.scalarInRange .u8 v
  | .wrI8 _ _ v => Machine.scalarInRange .i8 v
  | .wrU16 _ _ v => Machine.scalarInRange .u16 v
  | .wrI16 _ _ v => Machine.scalarInRange .i16 v
  | .wrU32 _ _ v => Machine.scalarInRange .u32 v
  | .wrI32 _ _ v => Machine.scalarInRange .i32 v
  | .wrU64 _ _ v => Machine.scalarInRange .u64 v
  | .wrI64 _ _ v => Machine.scalarInRange .i64 v
  | .rdU8 _ _ => true
  | .rdI8 _ _ => true
  | .rdU16 _ _ => true
  | .rdI16 _ _ => true
  | .rdU32 _ _ => true
  | .rdI32 _ _ => true
  | .rdU64 _ _ => true
  | .rdI64 _ _ => true
  | .msgEncode _ fields => Machine.fieldsInRange fields
  | .msgDecode _ _ => true
  | .frameEnc _ => true
  | .frameDec _ => true
  | .msgNew _ _ => true
  | .msgSetSrc _ _ => true
  | .msgSetDst _ _ => true
  | .msgGetPayload _ => true
  | .msgSetPayload _ _ => true
  | .msgGetLength _ => true
  | .msgEq _ _ => true

end Sys2Proof
end

