-- ==== Sys2Proof/Decode.lean ====
section
/-! DEFINITION. The operation select (30_encoding R84, R100, R102): the decoder from a request to an operation,
total on every request and naming the reserved codes it rejects, and the encoder, written from the same table. -/

namespace Sys2Proof

/-- Why a request names no operation: its OP is reserved (R102). -/
inductive DecodeError where
  | reservedOp (op : BitVec 8)
deriving DecidableEq, Repr

/-- The type a 3-bit type code stands for: TC = (log2 n, signed) (R84). -/
def scalarTypeOfCode (tc : BitVec 3) : ScalarType :=
  match tc.toNat with
  | 0 => .u8
  | 1 => .i8
  | 2 => .u16
  | 3 => .i16
  | 4 => .u32
  | 5 => .i32
  | 6 => .u64
  | _ => .i64

/-- A type's 3-bit type code (R84). -/
def codeOfScalarType : ScalarType → BitVec 3
  | .u8 => 0#3
  | .i8 => 1#3
  | .u16 => 2#3
  | .i16 => 3#3
  | .u32 => 4#3
  | .i32 => 5#3
  | .u64 => 6#3
  | .i64 => 7#3

/-- OP[7:4], the unit (R100). -/
def opUnit (op : BitVec 8) : BitVec 4 := op.extractLsb' 4 4

/-- OP[3:0], the function (R100). -/
def opFunction (op : BitVec 8) : BitVec 4 := op.extractLsb' 0 4

/-- Unit 0, the Address Codec (R100). -/
def decodeAddress (p : Operands) : Nat → Option Instr
  | 0 => some (.addrPack p.task p.node)
  | 1 => some (.addrUnpack p.addr)
  | 2 => some (.taskFromOffset p.n)
  | _ => none

/-- Unit 1, the Header Codec (R100). -/
def decodeHeader (p : Operands) : Nat → Option Instr
  | 0 => some (.hdrPack p.src p.dst p.msgId)
  | 1 => some (.hdrUnpack p.hdr)
  | _ => none

/-- Unit 2, the Scalar Field Codec: OP[3] = 0 writes, OP[3] = 1 reads, OP[2:0] is the type code (R84, R100). -/
def decodeScalar (p : Operands) : Nat → Option Instr
  | 0 => some (.wrU8 p.buf p.off p.val)
  | 1 => some (.wrI8 p.buf p.off p.val)
  | 2 => some (.wrU16 p.buf p.off p.val)
  | 3 => some (.wrI16 p.buf p.off p.val)
  | 4 => some (.wrU32 p.buf p.off p.val)
  | 5 => some (.wrI32 p.buf p.off p.val)
  | 6 => some (.wrU64 p.buf p.off p.val)
  | 7 => some (.wrI64 p.buf p.off p.val)
  | 8 => some (.rdU8 p.buf p.off)
  | 9 => some (.rdI8 p.buf p.off)
  | 10 => some (.rdU16 p.buf p.off)
  | 11 => some (.rdI16 p.buf p.off)
  | 12 => some (.rdU32 p.buf p.off)
  | 13 => some (.rdI32 p.buf p.off)
  | 14 => some (.rdU64 p.buf p.off)
  | 15 => some (.rdI64 p.buf p.off)
  | _ => none

/-- Unit 3, the generic entry points (R100); a type list carries the 3-bit codes (R84). -/
def decodeTyped (p : Operands) : Nat → Option Instr
  | 0 => some (.msgEncode p.msgId (p.fields.map fun f => (scalarTypeOfCode f.1, f.2)))
  | 1 => some (.msgDecode p.msg (p.types.map scalarTypeOfCode))
  | _ => none

/-- Unit 4, the Frame Encoder and the Frame Decoder (R100). -/
def decodeFrameUnit (p : Operands) : Nat → Option Instr
  | 0 => some (.frameEnc p.msg)
  | 1 => some (.frameDec p.bytes)
  | _ => none

/-- Unit 5, the Message entity (R100). -/
def decodeEntity (p : Operands) : Nat → Option Instr
  | 0 => some (.msgNew p.msgId p.length)
  | 1 => some (.msgSetSrc p.msg p.pair)
  | 2 => some (.msgSetDst p.msg p.pair)
  | 3 => some (.msgGetPayload p.msg)
  | 4 => some (.msgSetPayload p.msg p.buf)
  | 5 => some (.msgGetLength p.msg)
  | 6 => some (.msgEq p.a p.b)
  | _ => none

/-- The operation of function `f` of unit `u`, with the operands its rule names; none where the pair is reserved
(R100, R102). -/
def decodeUnit (p : Operands) (u f : Nat) : Option Instr :=
  match u with
  | 0 => decodeAddress p f
  | 1 => decodeHeader p f
  | 2 => decodeScalar p f
  | 3 => decodeTyped p f
  | 4 => decodeFrameUnit p f
  | 5 => decodeEntity p f
  | _ => none

/-- The operation a request asks for (R100); every other OP is reserved (R102). -/
def decode (r : Request) : Except DecodeError Instr :=
  match decodeUnit r.operands (opUnit r.op).toNat (opFunction r.op).toNat with
  | some i => .ok i
  | none => .error (.reservedOp r.op)

/-- A Message whose every field is specified and zero: what a Message port carries when nothing drives it. -/
def Message.zero : Message :=
  { msgId := some 0#10, src := some ⟨0#5, 0#6⟩, dst := some ⟨0#5, 0#6⟩,
    payload := some ⟨[], Nat.zero_le _⟩, valid := true }

/-- The operand ports when nothing drives them: all zero, all sequences empty (log 9, DESIGN CHOICE). -/
def Operands.zero : Operands :=
  { task := 0#5, node := 0#6, addr := 0#11, n := 0#5, src := 0#11, dst := 0#11, msgId := 0#10, hdr := 0#32,
    buf := [], off := 0, val := 0, fields := [], msg := Message.zero, types := [], bytes := [], length := 0,
    pair := ⟨0#5, 0#6⟩, a := Message.zero, b := Message.zero }

/-- The OP of an operation (R100). -/
def opSelect : Instr → BitVec 8
  | .addrPack _ _ => 0x00#8
  | .addrUnpack _ => 0x01#8
  | .taskFromOffset _ => 0x02#8
  | .hdrPack _ _ _ => 0x10#8
  | .hdrUnpack _ => 0x11#8
  | .wrU8 _ _ _ => 0x20#8
  | .wrI8 _ _ _ => 0x21#8
  | .wrU16 _ _ _ => 0x22#8
  | .wrI16 _ _ _ => 0x23#8
  | .wrU32 _ _ _ => 0x24#8
  | .wrI32 _ _ _ => 0x25#8
  | .wrU64 _ _ _ => 0x26#8
  | .wrI64 _ _ _ => 0x27#8
  | .rdU8 _ _ => 0x28#8
  | .rdI8 _ _ => 0x29#8
  | .rdU16 _ _ => 0x2A#8
  | .rdI16 _ _ => 0x2B#8
  | .rdU32 _ _ => 0x2C#8
  | .rdI32 _ _ => 0x2D#8
  | .rdU64 _ _ => 0x2E#8
  | .rdI64 _ _ => 0x2F#8
  | .msgEncode _ _ => 0x30#8
  | .msgDecode _ _ => 0x31#8
  | .frameEnc _ => 0x40#8
  | .frameDec _ => 0x41#8
  | .msgNew _ _ => 0x50#8
  | .msgSetSrc _ _ => 0x51#8
  | .msgSetDst _ _ => 0x52#8
  | .msgGetPayload _ => 0x53#8
  | .msgSetPayload _ _ => 0x54#8
  | .msgGetLength _ => 0x55#8
  | .msgEq _ _ => 0x56#8

/-- The ports an operation's operands stand on; the ports its rule does not name are zero. -/
def operandPorts : Instr → Operands
  | .addrPack t n => { Operands.zero with task := t, node := n }
  | .addrUnpack a => { Operands.zero with addr := a }
  | .taskFromOffset n => { Operands.zero with n := n }
  | .hdrPack s d m => { Operands.zero with src := s, dst := d, msgId := m }
  | .hdrUnpack h => { Operands.zero with hdr := h }
  | .wrU8 b o v => { Operands.zero with buf := b, off := o, val := v }
  | .wrI8 b o v => { Operands.zero with buf := b, off := o, val := v }
  | .wrU16 b o v => { Operands.zero with buf := b, off := o, val := v }
  | .wrI16 b o v => { Operands.zero with buf := b, off := o, val := v }
  | .wrU32 b o v => { Operands.zero with buf := b, off := o, val := v }
  | .wrI32 b o v => { Operands.zero with buf := b, off := o, val := v }
  | .wrU64 b o v => { Operands.zero with buf := b, off := o, val := v }
  | .wrI64 b o v => { Operands.zero with buf := b, off := o, val := v }
  | .rdU8 b o => { Operands.zero with buf := b, off := o }
  | .rdI8 b o => { Operands.zero with buf := b, off := o }
  | .rdU16 b o => { Operands.zero with buf := b, off := o }
  | .rdI16 b o => { Operands.zero with buf := b, off := o }
  | .rdU32 b o => { Operands.zero with buf := b, off := o }
  | .rdI32 b o => { Operands.zero with buf := b, off := o }
  | .rdU64 b o => { Operands.zero with buf := b, off := o }
  | .rdI64 b o => { Operands.zero with buf := b, off := o }
  | .msgEncode m fs => { Operands.zero with msgId := m, fields := fs.map fun f => (codeOfScalarType f.1, f.2) }
  | .msgDecode m ts => { Operands.zero with msg := m, types := ts.map codeOfScalarType }
  | .frameEnc m => { Operands.zero with msg := m }
  | .frameDec bs => { Operands.zero with bytes := bs }
  | .msgNew m l => { Operands.zero with msgId := m, length := l }
  | .msgSetSrc m a => { Operands.zero with msg := m, pair := a }
  | .msgSetDst m a => { Operands.zero with msg := m, pair := a }
  | .msgGetPayload m => { Operands.zero with msg := m }
  | .msgSetPayload m b => { Operands.zero with msg := m, buf := b }
  | .msgGetLength m => { Operands.zero with msg := m }
  | .msgEq a b => { Operands.zero with a := a, b := b }

/-- The request that asks for an operation (R22, R100). -/
def encode (i : Instr) : Request := { op := opSelect i, operands := operandPorts i }

/-- The source's name for FRAME_ENC (R106: an alias that adds no behaviour). -/
abbrev Instr.getNetworkBytes : Message → Instr := Instr.frameEnc

/-- The source's name for FRAME_DEC (R106: an alias that adds no behaviour). -/
abbrev Instr.convertNetworkBytes : Buffer → Instr := Instr.frameDec

/-- What the decoder reads from an instruction word of the opcode table: the table gives every row exactly the 8
bits of OP and no operand bits, so the operand ports are zero. -/
def decodeTableWord (nbits w : Nat) : Option Instr :=
  if nbits = 8 ∧ w < 256 then
    match decode { op := BitVec.ofNat 8 w, operands := Operands.zero } with
    | .ok i => some i
    | .error _ => none
  else none

end Sys2Proof
end

