-- ==== Sys2Proof/Machine/State.lean ====
section
/-! DEFINITION. The machine's state (10_state): the scanner registers, the last response, the requests the
requester issues, the static parameters, and the model's counter of free values; and the state after reset (R42). -/

namespace Sys2Proof.Machine

/-- SC.STATE (R31). SUCCESS and FAILURE are terminal. -/
inductive ScState where
  | searchStx | readLen | checkBodyBounds | verifyCrc | verifyEtx | success | failure
deriving DecidableEq, Repr

/-- The scanner registers (R31 to R35). -/
structure Scanner where
  /-- SC.STATE (R31). -/
  state : ScState
  /-- SC.POS, the search cursor (R32). -/
  pos   : Nat
  /-- SC.STX, the candidate index (R33). -/
  stx   : Nat
  /-- SC.LEN, the candidate's length byte (R34). -/
  len   : Byte
  /-- SC.BUF, the input of the scan (R35). -/
  buf   : List Byte
deriving DecidableEq, Repr

/-- The outcome codes of a response other than OK (R37). -/
inductive ErrorStatus where
  /-- MSG_DECODE: the payload is shorter than the fields (R252). -/
  | lengthMismatch
  /-- A scalar access outside its buffer (R255). -/
  | bufferRange
  /-- An operand outside its domain, or a reserved OP (R253). -/
  | refused
deriving DecidableEq, Repr

/-- The result fields of a response whose STATUS is OK, by the operations that give them. -/
inductive Result where
  /-- ADDR_PACK's ADDR (R120). -/
  | addr (a : Addr11)
  /-- ADDR_UNPACK's TASK and NODE (R121). -/
  | taskNode (task : TaskId) (node : NodeId)
  /-- TASK_FROM_OFFSET's TASK (R124). -/
  | task (t : TaskId)
  /-- HDR_PACK's HDR (R140). -/
  | hdr (h : Hdr32)
  /-- HDR_UNPACK's SRC, DST and MSGID (R141). -/
  | header (src dst : Addr11) (msgId : MessageId)
  /-- A write's BUF and NEXT (R151). -/
  | written (buf : Buffer) (next : Nat)
  /-- A read's VAL and NEXT (R151). -/
  | value (val : Int) (next : Nat)
  /-- A Message: MSG_ENCODE, FRAME_DEC, MSG_NEW, the setters, MSG_SET_PAYLOAD. -/
  | msg (m : Message)
  /-- MSG_DECODE's VALS (R172). -/
  | vals (vs : List Int)
  /-- FRAME_ENC's FRAME (R190). -/
  | frame (f : Buffer)
  /-- MSG_GET_PAYLOAD's BUF (R233). -/
  | payload (b : Buffer)
  /-- MSG_GET_LENGTH's LENGTH (R235). -/
  | length (n : Nat)
  /-- MSG_EQ's EQ (R237). -/
  | equal (e : Bool)
deriving DecidableEq, Repr

/-- A response (R22): STATUS OK with results, or another STATUS with none, since no result field has a defined
value then (R254). -/
inductive Response where
  | ok (r : Result)
  | error (e : ErrorStatus)
deriving DecidableEq, Repr

/-- The machine stops with a fault in no case: every abnormal outcome of the block is a response (R250, R259), so
this type has no constructor, which is safe (no claim can be lost to a fault). -/
inductive Fault
deriving DecidableEq, Repr

/-- Why a step has no meaning. -/
inductive Refusal where
  /-- An operation without a meaning in this model, raised by an arm of `exec` only; safe, since nothing can be
  proved of the run beyond it. No arm raises it: all 32 operations have their meaning. -/
  | notModelled (mnemonic : String)
deriving DecidableEq, Repr

/-- The state. -/
structure State where
  /-- The static parameters of the instance; no step writes them (R39; log 4). -/
  params       : Params
  /-- The scanner registers (R31 to R35). -/
  scanner      : Scanner
  /-- The response to the request served last (R42: none before the first). -/
  lastResponse : Option Response
  /-- The requests the requester issues, oldest first (R22, R63; log 5). -/
  requests     : List Request
  /-- The model's own: how many operations have been served, the number of the next draw of free values (log 2). -/
  free         : Nat
deriving DecidableEq, Repr

/-- The scanner registers after reset (R42, R280); the zeros of SC.STX and SC.LEN are the model's (log 3,
DESIGN CHOICE: the spec leaves the two UNSPECIFIED). -/
def Scanner.reset : Scanner := { state := .failure, pos := 0, stx := 0, len := 0#8, buf := [] }

/-- The machine right after reset (R42): no scan in progress, no response, no request. -/
def State.reset : State :=
  { params := Config.params, scanner := Scanner.reset, lastResponse := none, requests := [], free := 0 }

/-- What a step answers. -/
abbrev Outcome := Host.Outcome State Fault Refusal

end Sys2Proof.Machine
end

