-- ==== Sys2Proof/Machine/Flags.lean ====
section
/-! DEFINITION. The block's only flag, VALID (10_state R38), as each kind of operation sets it, and the 2-bit
STATUS code of a response (R37). The block has no condition codes. -/

namespace Sys2Proof.Machine

/-- VALID of a freshly constructed Message (R38, R170, R230). -/
def validFresh : Bool := true

/-- VALID of the Message of a successful scan (R38, R209). -/
def validDecoded : Bool := true

/-- VALID of the Message of a failed scan (R38, R210). -/
def validFailed : Bool := false

/-- STATUS, 2 bits (R37). -/
def statusCode : Response → BitVec 2
  | .ok _ => 0#2
  | .error .lengthMismatch => 1#2
  | .error .bufferRange => 2#2
  | .error .refused => 3#2

end Sys2Proof.Machine
end

