-- ==== Sys2Proof/Machine/Wire.lean ====
section
/-! DEFINITION. The constants of the wire format (00_scope R5) and the checksum function (60_exceptions R263). -/

namespace Sys2Proof.Machine

/-- STX, the start-of-frame delimiter (R5). -/
def stxByte : Byte := 0x1E#8

/-- ETX, the end-of-frame delimiter (R5). -/
def etxByte : Byte := 0x1F#8

/-- HDR_LEN, the header's bytes in a frame (R5). -/
def hdrLen : Nat := 4

/-- CRC_LEN, the checksum's bytes in a frame (R5). -/
def crcLen : Nat := 4

/-- LEN_OVERHEAD, LEN minus the payload length (R5, C3). -/
def lenOverhead : Nat := 8

/-- MAX_PAYLOAD, the largest payload the encoder accepts (R5, C2, D7). -/
def maxPayload : Nat := 246

/-- MIN_LEN, the smallest LEN the decoder accepts (R6, D9). -/
def minLen : Nat := 8

/-- One bit of CRC-32/ISO-HDLC in reflected form (R263, G1; log 7, PRESUMED). -/
def crcBit (c : BitVec 32) : BitVec 32 :=
  if c.getLsbD 0 then (c >>> 1) ^^^ 0xEDB88320#32 else c >>> 1

/-- Eight bits: one input byte (R263). -/
def crcByte (c : BitVec 32) (b : Byte) : BitVec 32 := Nat.repeat crcBit 8 (c ^^^ b.setWidth 32)

/-- CRC-32/ISO-HDLC, the default instantiation of the parameter function of R7 (R263, G1; log 7, PRESUMED). -/
def crc32IsoHdlc (bs : List Byte) : BitVec 32 := bs.foldl crcByte 0xFFFFFFFF#32 ^^^ 0xFFFFFFFF#32

/-- `crc32`, the parameter function of R7, as the instance's checksum unit computes it (log 7). -/
def checksum : ChecksumUnit → List Byte → BitVec 32
  | .isoHdlc => crc32IsoHdlc
  | .other k => Config.otherCrc32 k

end Sys2Proof.Machine
end

