-- ==== Sys2Proof/Machine/Ops.lean ====
section
/-! DEFINITION. The shared operations: completing a request with a response, raising an abnormal outcome
(60_exceptions R254, the block's only form of an exception), reset as an event (70_reset_and_hazards R280), taking
the next request (10_state R22), and the scalar access common to the sixteen WR_* and RD_* operations (42_scalar_codec R151). -/

namespace Sys2Proof.Machine

/-- The request served is answered by `r`; the draw number moves on (log 2). -/
def State.respond (s : State) (r : Response) : State := { s with lastResponse := some r, free := s.free + 1 }

/-- The scanner registers become `sc`. -/
def State.withScanner (s : State) (sc : Scanner) : State := { s with scanner := sc }

/-- An operation ends: its response is recorded and the block is ready for the next request (R22, R260). -/
def complete (r : Response) (s : State) : Outcome := .next (s.respond r)

/-- `raise <Status>`: the response carries the STATUS and no result (R254). This is all an abnormal outcome does:
there is no trap entry (R259) and nothing to return from (R260). -/
def raise (e : ErrorStatus) : Response := .error e

/-- Reset as an event (R280): the scanner and the last response take their reset values; the requests, which are the
requester's, and the static parameters keep theirs (log 11). -/
def State.applyReset (s : State) : State :=
  { s with scanner := State.reset.scanner, lastResponse := State.reset.lastResponse }

/-- The request the requester presents next, and the state once it is taken (R22, R63; log 5). -/
def fetch (s : State) : Option (Request × State) :=
  match s.requests with
  | [] => none
  | r :: rest => some (r, { s with requests := rest })

/-- With no request the block waits and nothing changes (log 5, DESIGN CHOICE). -/
def idle (s : State) : Outcome := .next s

/-- A request whose OP is reserved answers REFUSED, whatever its operands (R102, R258). -/
def rejectRequest (e : DecodeError) (s : State) : Outcome :=
  match e with
  | .reservedOp _ => complete (raise .refused) s

/-- A request with the given OP and no operand driven is presented next (log 9). -/
def presentWord (s : State) (w : Nat) : State :=
  { s with requests := { op := BitVec.ofNat 8 w, operands := Operands.zero } :: s.requests }

/-- `write T` (R151): an out-of-domain VAL is refused before the range is looked at (R258). -/
def writeScalar (t : ScalarType) (buf : Buffer) (off : Nat) (val : Int) : Response :=
  if scalarInRange t val = false then raise .refused
  else if off + scalarWidth t ≤ buf.length then
    .ok (.written (memWrite buf off (known (scalarBytes t val))) (off + scalarWidth t))
  else raise .bufferRange

/-- `read T` (R151), draw `k` supplying the UNSPECIFIED bytes. -/
def readScalar (t : ScalarType) (buf : Buffer) (off k : Nat) : Response :=
  if off + scalarWidth t ≤ buf.length then
    .ok (.value (scalarValue t (resolveFrom k off (slice buf off (off + scalarWidth t)))) (off + scalarWidth t))
  else raise .bufferRange

end Sys2Proof.Machine
end

