-- ==== Sys2Proof/Machine/Address.lean ====
section
/-! DEFINITION. The Address Codec (40_address_codec): ADDR_PACK, ADDR_UNPACK, TASK_FROM_OFFSET. -/

namespace Sys2Proof.Machine

/-- ADDR_PACK (R120). Reserved identities pack like any other value (R127). -/
def execAddrPack (task : TaskId) (node : NodeId) (s : State) : Outcome :=
  complete (.ok (.addr (packAddr task node))) s

/-- ADDR_UNPACK (R121). -/
def execAddrUnpack (addr : Addr11) (s : State) : Outcome :=
  complete (.ok (.taskNode (addrTask addr) (addrNode addr))) s

/-- The response of TASK_FROM_OFFSET: natural-number addition, no wrap (R124). -/
def taskFromOffset (p : Params) (n : BitVec 5) : Response :=
  let t := p.taskOffsetBase.val + n.toNat
  if 32 ≤ t ∨ t = p.taskBroadcast.toNat then raise .refused
  else .ok (.task (BitVec.ofNat 5 t))

/-- TASK_FROM_OFFSET (R124). -/
def execTaskFromOffset (n : BitVec 5) (s : State) : Outcome :=
  complete (taskFromOffset s.params n) s

end Sys2Proof.Machine
end

