-- ==== Sys2Proof/Machine/Decoder.lean ====
section
/-! DEFINITION. The Frame Decoder (44_frame_decoder): the scanner as a step machine (R201 to R212), FRAME_DEC (R200),
and the functional form the step machine computes (R213). -/

namespace Sys2Proof.Machine

/-- The bytes the checksum covers, for the candidate at `stx` with length byte `len` (R88, R207). -/
def crcSpan (coversLen : Bool) (B : List Byte) (stx len : Nat) : List Byte :=
  if coversLen then slice B (stx + 1) (stx + len - 2) else slice B (stx + 2) (stx + len - 2)

/-- The checksum a candidate carries (R207). -/
def storedCrc (B : List Byte) (stx len : Nat) : Nat := fromLe (slice B (stx + len - 2) (stx + len + 2))

/-- The candidate fails: the search resumes one byte after its STX (R204). -/
def candidateFails (sc : Scanner) : Scanner := { sc with pos := sc.stx + 1, state := .searchStx }

/-- SEARCH_STX (R203). -/
def stepSearchStx (sc : Scanner) : Scanner :=
  match sc.buf[sc.pos]? with
  | none => { sc with state := .failure }
  | some b =>
    if b = stxByte then { sc with stx := sc.pos, state := .readLen } else { sc with pos := sc.pos + 1 }

/-- READ_LEN (R205). -/
def stepReadLen (sc : Scanner) : Scanner :=
  match sc.buf[sc.stx + 1]? with
  | none => candidateFails sc
  | some b =>
    if sc.stx + b.toNat + 3 > sc.buf.length then candidateFails { sc with len := b }
    else { sc with len := b, state := .checkBodyBounds }

/-- CHECK_BODY_BOUNDS (R206). -/
def stepCheckBodyBounds (sc : Scanner) : Scanner :=
  if sc.len.toNat < minLen then candidateFails sc else { sc with state := .verifyCrc }

/-- VERIFY_CRC (R207). -/
def stepVerifyCrc (crc : List Byte → BitVec 32) (coversLen : Bool) (sc : Scanner) : Scanner :=
  if (crc (crcSpan coversLen sc.buf sc.stx sc.len.toNat)).toNat ≠ storedCrc sc.buf sc.stx sc.len.toNat then
    candidateFails sc
  else { sc with state := .verifyEtx }

/-- VERIFY_ETX (R208). -/
def stepVerifyEtx (sc : Scanner) : Scanner :=
  if sc.buf[sc.stx + sc.len.toNat + 2]? ≠ some etxByte then candidateFails sc else { sc with state := .success }

/-- One step of the scanner (R202, R212). SUCCESS and FAILURE are never left (R209, R210). -/
def scanStep (crc : List Byte → BitVec 32) (coversLen : Bool) (sc : Scanner) : Scanner :=
  match sc.state with
  | .searchStx => stepSearchStx sc
  | .readLen => stepReadLen sc
  | .checkBodyBounds => stepCheckBodyBounds sc
  | .verifyCrc => stepVerifyCrc crc coversLen sc
  | .verifyEtx => stepVerifyEtx sc
  | .success => sc
  | .failure => sc

/-- `n` steps of the scanner. -/
def scanSteps (crc : List Byte → BitVec 32) (coversLen : Bool) : Nat → Scanner → Scanner
  | 0, sc => sc
  | n + 1, sc => scanSteps crc coversLen n (scanStep crc coversLen sc)

/-- The scanner at the start of FRAME_DEC (R43, R201); SC.STX and SC.LEN are free values (log 2). -/
def scanStart (B : List Byte) (k : Nat) : Scanner :=
  { state := .searchStx, pos := 0, stx := Config.freeScStx k, len := Config.freeScLen k, buf := B }

/-- A whole scan: 6L + 1 steps reach a terminal state whatever the input (R214). -/
def scan (crc : List Byte → BitVec 32) (coversLen : Bool) (B : List Byte) (k : Nat) : Scanner :=
  scanSteps crc coversLen (6 * B.length + 1) (scanStart B k)

theorem slice_length_le {α : Type} (B : List α) (lo hi : Nat) : (slice B lo hi).length ≤ hi - lo := by
  unfold slice
  exact List.length_take_le _ _

/-- The Message of the candidate at `stx` with length byte `len` (R209). -/
def messageAt (B : List Byte) (stx : Nat) (len : Byte) : Message :=
  let h : Hdr32 := BitVec.ofNat 32 (fromLe (slice B (stx + 2) (stx + 6)))
  { msgId := some (headerMsgId h), src := some (unpackAddress (headerSrc h)),
    dst := some (unpackAddress (headerDst h)),
    payload := some ⟨known (slice B (stx + 6) (stx + len.toNat - 2)), by
      have h1 := slice_length_le B (stx + 6) (stx + len.toNat - 2)
      have h2 := len.isLt
      simp only [known, List.length_map, Config.payloadCap]
      omega⟩,
    valid := validDecoded }

/-- The invalid Message: MSGID, SRC, DST and PAYLOAD are UNSPECIFIED (R210). -/
def invalidMessage : Message := { msgId := none, src := none, dst := none, payload := none, valid := validFailed }

/-- The Message a finished scan gives (R200, R209, R210). -/
def scanMessage (sc : Scanner) : Message :=
  match sc.state with
  | .success => messageAt sc.buf sc.stx sc.len
  | .failure => invalidMessage
  | .searchStx | .readLen | .checkBodyBounds | .verifyCrc | .verifyEtx => invalidMessage

/-- FRAME_DEC (R200): STATUS is always OK; the scanner registers stay as the scan leaves them. -/
def execFrameDec (bytes : Buffer) (s : State) : Outcome :=
  let sc := scan (checksum s.params.crc) s.params.crcCoversLen (resolve s.free bytes) s.free
  complete (.ok (.msg (scanMessage sc))) (s.withScanner sc)

/-- The well-formed frame at index `i` (R213). -/
def frameAt (crc : List Byte → BitVec 32) (coversLen : Bool) (B : List Byte) (i : Nat) : Bool :=
  match B[i]?, B[i + 1]? with
  | some b, some l =>
    decide (b = stxByte) && decide (i + l.toNat + 3 ≤ B.length) && decide (minLen ≤ l.toNat) &&
      decide ((crc (crcSpan coversLen B i l.toNat)).toNat = storedCrc B i l.toNat) &&
      decide (B[i + l.toNat + 2]? = some etxByte)
  | _, _ => false

/-- The least index with a well-formed frame, if there is one (R213). -/
def firstFrame (crc : List Byte → BitVec 32) (coversLen : Bool) (B : List Byte) : Option Nat :=
  (List.range B.length).find? (frameAt crc coversLen B)

end Sys2Proof.Machine
end

