-- ==== Sys2Proof/Machine/Encoder.lean ====
section
/-! DEFINITION. The Frame Encoder (43_frame_encoder R190): FRAME_ENC. A byte that depends on an UNSPECIFIED field
of the Message is itself UNSPECIFIED (93_implementation_defined U5). -/

namespace Sys2Proof.Machine

/-- `b` if what it depends on is specified, else UNSPECIFIED. -/
def cellIf (isKnown : Bool) (b : Byte) : ByteCell := if isKnown then some b else none

/-- Which of the four header bytes are specified, by the fields they hold bits of (R83): SRC; SRC and DST; DST and
MSGID; MSGID. -/
def headerKnown (m : Message) : List Bool :=
  [m.src.isSome, m.src.isSome && m.dst.isSome, m.dst.isSome && m.msgId.isSome, m.msgId.isSome]

/-- The header word of a Message (R144, R190), with 0 for a field that is UNSPECIFIED; no byte that depends on such
a field is read from it (`headerCells`). -/
def messageHeader (m : Message) : Hdr32 :=
  packHeader ((m.src.map packAddress).getD 0#11) ((m.dst.map packAddress).getD 0#11) (m.msgId.getD 0#10)

/-- The four header bytes of a frame, least significant first (R55, R83). -/
def headerCells (m : Message) : Buffer :=
  List.zipWith cellIf (headerKnown m) (leBytes hdrLen (messageHeader m).toNat)

/-- The four checksum bytes, least significant first (R55, R88). -/
def crcCells (crc : List Byte → BitVec 32) (span : Buffer) : Buffer :=
  match allKnown span with
  | some bs => known (leBytes crcLen (crc bs).toNat)
  | none => List.replicate crcLen none

/-- The frame of a Message whose payload is `p` (R86, R190), for any checksum function and either span (R88). -/
def frameCells (crc : List Byte → BitVec 32) (coversLen : Bool) (m : Message) (p : Buffer) : Buffer :=
  let len : ByteCell := some (BitVec.ofNat 8 (p.length + lenOverhead))
  let body := headerCells m ++ p
  let span := if coversLen then len :: body else body
  some stxByte :: len :: (body ++ crcCells crc span ++ [some etxByte])

/-- The response of FRAME_ENC: a payload of more than MAX_PAYLOAD bytes is refused (R190). Of a Message whose payload
is UNSPECIFIED as a whole, the invalid Message of R210, the whole result is UNSPECIFIED (U4): whether it is refused,
the frame's length and every byte of it, STX, LEN and ETX included (log 1, 2). VALID is not read. -/
def encodeFrame (crc : List Byte → BitVec 32) (coversLen : Bool) (m : Message) (k : Nat) : Response :=
  match m.payload with
  | some p =>
    if maxPayload < p.val.length then raise .refused else .ok (.frame (frameCells crc coversLen m p.val))
  | none =>
    if maxPayload < (Config.freeLength k).val then raise .refused
    else .ok (.frame (List.replicate (Config.freeFrameLength k) none))

/-- FRAME_ENC (R190). -/
def execFrameEnc (msg : Message) (s : State) : Outcome :=
  complete (encodeFrame (checksum s.params.crc) s.params.crcCoversLen msg s.free) s

end Sys2Proof.Machine
end

