-- ==== Sys2Proof/Machine/Entity.lean ====
section
/-! DEFINITION. The Message entity (45_message_entity): MSG_NEW, MSG_SET_SRC, MSG_SET_DST, MSG_GET_PAYLOAD,
MSG_SET_PAYLOAD, MSG_GET_LENGTH, MSG_EQ. -/

namespace Sys2Proof.Machine

/-- The response of MSG_NEW: every payload byte and both Addresses are UNSPECIFIED (R230). -/
def msgNew (msgId : MessageId) (length : Nat) : Response :=
  if h : length ≤ Config.payloadCap then
    .ok (.msg { msgId := some msgId, src := none, dst := none,
                payload := some ⟨List.replicate length none, by rw [List.length_replicate]; exact h⟩,
                valid := validFresh })
  else raise .refused

/-- MSG_NEW (R230). -/
def execMsgNew (msgId : MessageId) (length : Nat) (s : State) : Outcome := complete (msgNew msgId length) s

/-- MSG_SET_SRC (R231; of the invalid Message the result is UNSPECIFIED, U4, log 1). -/
def execMsgSetSrc (msg : Message) (addr : Address) (s : State) : Outcome :=
  complete (.ok (.msg (updateMessage s.free msg fun m => { m with src := some addr }))) s

/-- MSG_SET_DST (R232; of the invalid Message the result is UNSPECIFIED, U4, log 1). -/
def execMsgSetDst (msg : Message) (addr : Address) (s : State) : Outcome :=
  complete (.ok (.msg (updateMessage s.free msg fun m => { m with dst := some addr }))) s

/-- MSG_GET_PAYLOAD (R233): VALID is not tested. -/
def execMsgGetPayload (msg : Message) (s : State) : Outcome :=
  complete (.ok (.payload (payloadFor s.free msg).val)) s

/-- The response of MSG_SET_PAYLOAD: the bound is looked at before the Message (R234); of the invalid Message the
result is UNSPECIFIED (U4, log 1). -/
def msgSetPayload (msg : Message) (buf : Buffer) (k : Nat) : Response :=
  if h : buf.length ≤ Config.payloadCap then
    .ok (.msg (updateMessage k msg fun m => { m with payload := some ⟨buf, h⟩ }))
  else raise .refused

/-- MSG_SET_PAYLOAD (R234). -/
def execMsgSetPayload (msg : Message) (buf : Buffer) (s : State) : Outcome := complete (msgSetPayload msg buf s.free) s

/-- MSG_GET_LENGTH: the payload's length (R235). -/
def execMsgGetLength (msg : Message) (s : State) : Outcome :=
  complete (.ok (.length (payloadFor s.free msg).val.length)) s

/-- EQ of MSG_EQ: component-wise, VALID not compared; UNSPECIFIED when a Message has UNSPECIFIED fields, which is
draw `k`'s free value (R237; log 2). -/
def messageEq (a b : Message) (k : Nat) : Bool :=
  match messageContent a, messageContent b with
  | some (ia, sa, da, pa), some (ib, sb, db, pb) =>
    decide (ia = ib) && decide (sa = sb) && decide (da = db) && decide (pa = pb)
  | _, _ => Config.freeBool k

/-- MSG_EQ (R237). -/
def execMsgEq (a b : Message) (s : State) : Outcome := complete (.ok (.equal (messageEq a b s.free))) s

end Sys2Proof.Machine
end

