-- ==== Sys2Proof/Machine/Header.lean ====
section
/-! DEFINITION. The Header Codec (41_header_codec): HDR_PACK, HDR_UNPACK. -/

namespace Sys2Proof.Machine

/-- HDR_PACK (R140). -/
def execHdrPack (src dst : Addr11) (msgId : MessageId) (s : State) : Outcome :=
  complete (.ok (.hdr (packHeader src dst msgId))) s

/-- HDR_UNPACK (R141). -/
def execHdrUnpack (hdr : Hdr32) (s : State) : Outcome :=
  complete (.ok (.header (headerSrc hdr) (headerDst hdr) (headerMsgId hdr))) s

end Sys2Proof.Machine
end

