-- ==== Sys2Proof/Machine/Scalar.lean ====
section
/-! DEFINITION. The sixteen scalar operations (42_scalar_codec R152 to R167), each R151 at its own type. -/

namespace Sys2Proof.Machine

/-- WR_U8 (R152). -/
def execWrU8 (buf : Buffer) (off : Nat) (val : Int) (s : State) : Outcome :=
  complete (writeScalar .u8 buf off val) s

/-- WR_I8 (R153). -/
def execWrI8 (buf : Buffer) (off : Nat) (val : Int) (s : State) : Outcome :=
  complete (writeScalar .i8 buf off val) s

/-- WR_U16 (R154). -/
def execWrU16 (buf : Buffer) (off : Nat) (val : Int) (s : State) : Outcome :=
  complete (writeScalar .u16 buf off val) s

/-- WR_I16 (R155). -/
def execWrI16 (buf : Buffer) (off : Nat) (val : Int) (s : State) : Outcome :=
  complete (writeScalar .i16 buf off val) s

/-- WR_U32 (R156). -/
def execWrU32 (buf : Buffer) (off : Nat) (val : Int) (s : State) : Outcome :=
  complete (writeScalar .u32 buf off val) s

/-- WR_I32 (R157). -/
def execWrI32 (buf : Buffer) (off : Nat) (val : Int) (s : State) : Outcome :=
  complete (writeScalar .i32 buf off val) s

/-- WR_U64 (R158). -/
def execWrU64 (buf : Buffer) (off : Nat) (val : Int) (s : State) : Outcome :=
  complete (writeScalar .u64 buf off val) s

/-- WR_I64 (R159). -/
def execWrI64 (buf : Buffer) (off : Nat) (val : Int) (s : State) : Outcome :=
  complete (writeScalar .i64 buf off val) s

/-- RD_U8 (R160). -/
def execRdU8 (buf : Buffer) (off : Nat) (s : State) : Outcome :=
  complete (readScalar .u8 buf off s.free) s

/-- RD_I8 (R161). -/
def execRdI8 (buf : Buffer) (off : Nat) (s : State) : Outcome :=
  complete (readScalar .i8 buf off s.free) s

/-- RD_U16 (R162). -/
def execRdU16 (buf : Buffer) (off : Nat) (s : State) : Outcome :=
  complete (readScalar .u16 buf off s.free) s

/-- RD_I16 (R163). -/
def execRdI16 (buf : Buffer) (off : Nat) (s : State) : Outcome :=
  complete (readScalar .i16 buf off s.free) s

/-- RD_U32 (R164). -/
def execRdU32 (buf : Buffer) (off : Nat) (s : State) : Outcome :=
  complete (readScalar .u32 buf off s.free) s

/-- RD_I32 (R165). -/
def execRdI32 (buf : Buffer) (off : Nat) (s : State) : Outcome :=
  complete (readScalar .i32 buf off s.free) s

/-- RD_U64 (R166). -/
def execRdU64 (buf : Buffer) (off : Nat) (s : State) : Outcome :=
  complete (readScalar .u64 buf off s.free) s

/-- RD_I64 (R167). -/
def execRdI64 (buf : Buffer) (off : Nat) (s : State) : Outcome :=
  complete (readScalar .i64 buf off s.free) s

end Sys2Proof.Machine
end

