-- ==== Sys2Proof/Machine/Typed.lean ====
section
/-! DEFINITION. The generic entry points (42_scalar_codec R170, R172): MSG_ENCODE and MSG_DECODE. -/

namespace Sys2Proof.Machine

theorem leBytes_length (n u : Nat) : (leBytes n u).length = n := by
  induction n generalizing u with
  | zero => rfl
  | succ n ih => simp [leBytes, ih]

theorem fieldBytes_length (fs : List (ScalarType × Int)) :
    (fieldBytes fs).length = totalWidth (fs.map (·.1)) := by
  induction fs with
  | nil => rfl
  | cons f fs ih => simp [fieldBytes, totalWidth, scalarBytes, leBytes_length, ih]

/-- The response of MSG_ENCODE: a value outside its type is refused first (R101, R258), then a payload that does not
fit a Message; the Addresses of the result are UNSPECIFIED (R170). -/
def msgEncode (msgId : MessageId) (fields : List (ScalarType × Int)) : Response :=
  if fieldsInRange fields = false then raise .refused
  else if h : totalWidth (fields.map (·.1)) ≤ Config.payloadCap then
    .ok (.msg { msgId := some msgId, src := none, dst := none,
                payload := some ⟨known (fieldBytes fields), by
                  rw [known, List.length_map, fieldBytes_length]; exact h⟩,
                valid := validFresh })
  else raise .refused

/-- MSG_ENCODE (R170). -/
def execMsgEncode (msgId : MessageId) (fields : List (ScalarType × Int)) (s : State) : Outcome :=
  complete (msgEncode msgId fields) s

/-- The response of MSG_DECODE: the length is checked before any byte is read, and bytes beyond the fields are
ignored (R172). VALID is not tested. -/
def msgDecode (msg : Message) (types : List ScalarType) (k : Nat) : Response :=
  let p := (payloadFor k msg).val
  if p.length < totalWidth types then raise .lengthMismatch
  else .ok (.vals (fieldValues types (resolve k p)))

/-- MSG_DECODE (R172). -/
def execMsgDecode (msg : Message) (types : List ScalarType) (s : State) : Outcome :=
  complete (msgDecode msg types s.free) s

end Sys2Proof.Machine
end

