-- ==== Sys2Proof/Machine/Dispatch.lean ====
section
/-! DEFINITION. One arm per operation of the table (30_encoding R100), each a direct call of its meaning. -/

namespace Sys2Proof.Machine

def exec (i : Instr) (s : State) : Host.Outcome State Fault Refusal :=
  match i with
  | .addrPack task node => Sys2Proof.Machine.execAddrPack task node s
  | .addrUnpack addr => Sys2Proof.Machine.execAddrUnpack addr s
  | .taskFromOffset n => Sys2Proof.Machine.execTaskFromOffset n s
  | .hdrPack src dst msgId => Sys2Proof.Machine.execHdrPack src dst msgId s
  | .hdrUnpack hdr => Sys2Proof.Machine.execHdrUnpack hdr s
  | .wrU8 buf off val => Sys2Proof.Machine.execWrU8 buf off val s
  | .wrI8 buf off val => Sys2Proof.Machine.execWrI8 buf off val s
  | .wrU16 buf off val => Sys2Proof.Machine.execWrU16 buf off val s
  | .wrI16 buf off val => Sys2Proof.Machine.execWrI16 buf off val s
  | .wrU32 buf off val => Sys2Proof.Machine.execWrU32 buf off val s
  | .wrI32 buf off val => Sys2Proof.Machine.execWrI32 buf off val s
  | .wrU64 buf off val => Sys2Proof.Machine.execWrU64 buf off val s
  | .wrI64 buf off val => Sys2Proof.Machine.execWrI64 buf off val s
  | .rdU8 buf off => Sys2Proof.Machine.execRdU8 buf off s
  | .rdI8 buf off => Sys2Proof.Machine.execRdI8 buf off s
  | .rdU16 buf off => Sys2Proof.Machine.execRdU16 buf off s
  | .rdI16 buf off => Sys2Proof.Machine.execRdI16 buf off s
  | .rdU32 buf off => Sys2Proof.Machine.execRdU32 buf off s
  | .rdI32 buf off => Sys2Proof.Machine.execRdI32 buf off s
  | .rdU64 buf off => Sys2Proof.Machine.execRdU64 buf off s
  | .rdI64 buf off => Sys2Proof.Machine.execRdI64 buf off s
  | .msgEncode msgId fields => Sys2Proof.Machine.execMsgEncode msgId fields s
  | .msgDecode msg types => Sys2Proof.Machine.execMsgDecode msg types s
  | .frameEnc msg => Sys2Proof.Machine.execFrameEnc msg s
  | .frameDec bytes => Sys2Proof.Machine.execFrameDec bytes s
  | .msgNew msgId length => Sys2Proof.Machine.execMsgNew msgId length s
  | .msgSetSrc msg addr => Sys2Proof.Machine.execMsgSetSrc msg addr s
  | .msgSetDst msg addr => Sys2Proof.Machine.execMsgSetDst msg addr s
  | .msgGetPayload msg => Sys2Proof.Machine.execMsgGetPayload msg s
  | .msgSetPayload msg buf => Sys2Proof.Machine.execMsgSetPayload msg buf s
  | .msgGetLength msg => Sys2Proof.Machine.execMsgGetLength msg s
  | .msgEq a b => Sys2Proof.Machine.execMsgEq a b s

end Sys2Proof.Machine
end

