-- ==== Sys2Proof/Machine/Step.lean ====
section
/-! DEFINITION. One step: the block serves the request the requester presents (10_state R22, 20_memory R63). -/

namespace Sys2Proof.Machine

/-- One step: the oldest request is taken, decoded and served from its operands to its response, as one indivisible
operation (R9, R61). -/
def step (s : State) : Host.Outcome State Fault Refusal :=
  match fetch s with
  | none => idle s
  | some (r, s') =>
    match decode r with
    | .ok i => exec i s'
    | .error e => rejectRequest e s'

/-- The state whose next request is the given OP with zero operands (log 9). OP is 8 bits, the table's width for
every row, so `_nbits` says nothing more. -/
def State.withFetchWord (s : State) (_nbits w : Nat) : State := presentWord s w

end Sys2Proof.Machine
end

