-- ==== Sys2Proof/Safety.lean ====
section
/-! DEFINITION. The terms claims are stated in: the response an operation gives, the sixteen scalar operations by
type, Messages with every field specified, a run of writes or reads, and the invariant of the scanner registers. -/

namespace Sys2Proof.Machine

/-- The response operation `i` gives in state `s`. -/
def responseOf (i : Instr) (s : State) : Option Response :=
  match exec i s with
  | .next t => t.lastResponse
  | .fault _ => none
  | .refused _ => none

/-- WR_<T>, by its type: WR_U8, WR_I8, WR_U16, WR_I16, WR_U32, WR_I32, WR_U64, WR_I64. -/
def writeInstr : ScalarType → Buffer → Nat → Int → Instr
  | .u8, b, o, v => .wrU8 b o v
  | .i8, b, o, v => .wrI8 b o v
  | .u16, b, o, v => .wrU16 b o v
  | .i16, b, o, v => .wrI16 b o v
  | .u32, b, o, v => .wrU32 b o v
  | .i32, b, o, v => .wrI32 b o v
  | .u64, b, o, v => .wrU64 b o v
  | .i64, b, o, v => .wrI64 b o v

/-- RD_<T>, by its type: RD_U8, RD_I8, RD_U16, RD_I16, RD_U32, RD_I32, RD_U64, RD_I64. -/
def readInstr : ScalarType → Buffer → Nat → Instr
  | .u8, b, o => .rdU8 b o
  | .i8, b, o => .rdI8 b o
  | .u16, b, o => .rdU16 b o
  | .i16, b, o => .rdI16 b o
  | .u32, b, o => .rdU32 b o
  | .i32, b, o => .rdI32 b o
  | .u64, b, o => .rdU64 b o
  | .i64, b, o => .rdI64 b o

/-- The least value of a scalar type (R150). -/
def scalarMin : ScalarType → Int
  | .u8 | .u16 | .u32 | .u64 => 0
  | .i8 => -128
  | .i16 => -32768
  | .i32 => -2147483648
  | .i64 => -9223372036854775808

/-- The greatest value of a scalar type (R150). -/
def scalarMax : ScalarType → Int
  | .u8 => 255
  | .i8 => 127
  | .u16 => 65535
  | .i16 => 32767
  | .u32 => 4294967295
  | .i32 => 2147483647
  | .u64 => 18446744073709551615
  | .i64 => 9223372036854775807

/-- The sum `b_0 + 256 b_1 + … + 256^(n−1) b_(n−1)` of R160 to R167. -/
def weightedSum (b : Nat → Byte) : Nat → Nat
  | 0 => 0
  | n + 1 => weightedSum b n + (b n).toNat * 256 ^ n

/-- A payload with every byte specified. -/
abbrev KnownPayload := { bytes : List Byte // bytes.length ≤ Config.payloadCap }

/-- A Message with every field specified. -/
def fullMessage (msgId : MessageId) (src dst : Address) (p : KnownPayload) (valid : Bool) : Message :=
  { msgId := some msgId, src := some src, dst := some dst,
    payload := some ⟨known p.val, by rw [known, List.length_map]; exact p.property⟩, valid := valid }

/-- The checksum tells apart two sequences that differ in exactly one byte (R218, G2). -/
def DetectsOneChangedByte (crc : List Byte → BitVec 32) : Prop :=
  ∀ (xs ys : List Byte) (b c : Byte), b ≠ c → crc (xs ++ b :: ys) ≠ crc (xs ++ c :: ys)

/-- The header word of R82 and R144 as a number. -/
def headerNumber (msgId : MessageId) (src dst : Address) : Nat :=
  msgId.toNat * 2 ^ 22 + (dst.node.toNat * 32 + dst.task.toNat) * 2 ^ 11 + (src.node.toNat * 32 + src.task.toNat)

/-- The writes of R171: one WR_<T_i> per field, each at the offset the one before returned. -/
def writeAll (s : State) : Buffer → Nat → List (ScalarType × Int) → Option Buffer
  | buf, _, [] => some buf
  | buf, off, (t, v) :: fs =>
    match responseOf (writeInstr t buf off v) s with
    | some (.ok (.written buf' next)) => writeAll s buf' next fs
    | _ => none

/-- The reads of R173: one RD_<T_i> per type, each at the offset the one before returned. -/
def readAll (s : State) : Buffer → Nat → List ScalarType → Option (List Int)
  | _, _, [] => some []
  | buf, off, t :: ts =>
    match responseOf (readInstr t buf off) s with
    | some (.ok (.value v next)) => (readAll s buf next ts).map (v :: ·)
    | _ => none

/-- What the scanner registers say between operations: FAILURE, and then SC.BUF holds no well-formed frame and the
search has reached its end; or SUCCESS, and then SC.STX is the least index of a well-formed frame of SC.BUF, SC.POS
stands there and SC.LEN is its length byte (R31 to R35, R213). -/
def ScannerAtRest (crc : List Byte → BitVec 32) (coversLen : Bool) (sc : Scanner) : Prop :=
  (sc.state = .failure ∧ sc.pos = sc.buf.length ∧ ∀ i, frameAt crc coversLen sc.buf i = false) ∨
  (sc.state = .success ∧ sc.pos = sc.stx ∧ sc.buf[sc.stx + 1]? = some sc.len ∧
    frameAt crc coversLen sc.buf sc.stx = true ∧ ∀ i, i < sc.stx → frameAt crc coversLen sc.buf i = false)

/-- The invariant every step keeps: no scan is in progress between operations, and the scanner registers are those
of a finished scan of SC.BUF. -/
def State.Inv (s : State) : Prop := ScannerAtRest (checksum s.params.crc) s.params.crcCoversLen s.scanner

end Sys2Proof.Machine
end

