-- ==== Sys2Proof/Certificates/Slice0/Obligations.lean ====
section
/-! DEFINITION. The statements for the provers. A statement of an operation's result says the whole next state: the
last response, the draw number, and, by the record update, that every other field keeps its value. A checksum is
everywhere the instance's own (`checksum s.params.crc`, R7), so a statement over every state holds for every checksum
function; what needs CRC-32/ISO-HDLC says so. -/

open Sys2Proof Sys2Proof.Machine

/-! ### The step, the operation select, the whole machine -/

/-- R22, R63: a step serves the oldest request, as the operation its OP selects, and takes it off the list. -/
def Obligations.StepServesTheDecodedRequest : Prop :=
  ∀ (s : State) (r : Request) (rest : List Request) (i : Instr),
    s.requests = r :: rest → decode r = .ok i → step s = exec i { s with requests := rest }

/-- The model's choice (log 5): with no request present a step changes nothing. -/
def Obligations.StepWithoutRequestWaits : Prop :=
  ∀ s : State, s.requests = [] → step s = .next s

/-- R102, R258(a), the spec's own choice D26: a reserved OP answers REFUSED whatever the operands, and nothing but
the response (and the taken request) changes. -/
def Obligations.ReservedSelectIsRefused : Prop :=
  ∀ (s : State) (r : Request) (rest : List Request), s.requests = r :: rest →
    r.op.toNat ∉ [0x00, 0x01, 0x02, 0x10, 0x11, 0x20, 0x21, 0x22, 0x23, 0x24, 0x25, 0x26, 0x27, 0x28, 0x29, 0x2A,
      0x2B, 0x2C, 0x2D, 0x2E, 0x2F, 0x30, 0x31, 0x40, 0x41, 0x50, 0x51, 0x52, 0x53, 0x54, 0x55, 0x56] →
    step s = .next { s with requests := rest, lastResponse := some (.error .refused), free := s.free + 1 }

/-- R100, the spec's own choice D3: decoding the request that encodes an operation gives it back, with every operand
at every value. -/
def Obligations.DecodeInvertsEncode : Prop :=
  ∀ i : Instr, decode (encode i) = .ok i

/-- R100: select codes of each unit, written out from the table, decode to their operations (operand ports zero). -/
def Obligations.SelectCodesDecode : Prop :=
  decodeTableWord 8 0x00 = some (.addrPack 0#5 0#6) ∧ decodeTableWord 8 0x11 = some (.hdrUnpack 0#32) ∧
  decodeTableWord 8 0x25 = some (.wrI32 [] 0 0) ∧ decodeTableWord 8 0x2A = some (.rdU16 [] 0) ∧
  decodeTableWord 8 0x30 = some (.msgEncode 0#10 []) ∧ decodeTableWord 8 0x41 = some (.frameDec []) ∧
  decodeTableWord 8 0x50 = some (.msgNew 0#10 0) ∧ decodeTableWord 8 0x57 = none

/-- R250 ("Nothing in this core is 'fatal'"): a step never stops, whatever the state. -/
def Obligations.StepNeverStops : Prop :=
  ∀ s : State, ∃ t, step s = .next t

/-- R42, R280, the spec's own choice D21: what reset leaves. That the event leaves the pending
requests is the model's choice (log 11: R280 names Messages and buffers only), and so is that the parameters stand in
State (log 4). SC.STX and SC.LEN, which the spec leaves UNSPECIFIED, are not mentioned. -/
def Obligations.ResetLeavesNoScanAndNoResponse : Prop :=
  (State.reset.scanner.state = .failure ∧ State.reset.scanner.pos = 0 ∧ State.reset.scanner.buf = [] ∧
    State.reset.lastResponse = none) ∧
  ∀ s : State, s.applyReset.scanner.state = .failure ∧ s.applyReset.scanner.pos = 0 ∧
    s.applyReset.scanner.buf = [] ∧ s.applyReset.lastResponse = none ∧ s.applyReset.requests = s.requests ∧
    s.applyReset.params = s.params

/-- R39: no step writes a static parameter. -/
def Obligations.StepKeepsParameters : Prop :=
  ∀ s t : State, step s = .next t → t.params = s.params

/-- R41 with R20: no operation but FRAME_DEC touches the scanner registers. -/
def Obligations.OnlyFrameDecMovesTheScanner : Prop :=
  ∀ (i : Instr) (s t : State), (∀ bytes, i ≠ .frameDec bytes) → exec i s = .next t → t.scanner = s.scanner

/-- R20, R282: a response depends on the operands alone, not on the scanner, the last response or the pending
requests an earlier operation or a reset left (the parameters and the draw number being equal). -/
def Obligations.ResponseIgnoresHistory : Prop :=
  ∀ (i : Instr) (s s' : State), s.params = s'.params → s.free = s'.free → responseOf i s = responseOf i s'

/-- R256, with the choices D4, D5, D7, D25 it rests on: which operations can give which outcome. -/
def Obligations.OutcomesByOperation : Prop :=
  ∀ (i : Instr) (s : State),
    (responseOf i s = some (.error .lengthMismatch) → ∃ m ts, i = .msgDecode m ts) ∧
    (responseOf i s = some (.error .bufferRange) →
      (∃ t buf off v, i = writeInstr t buf off v) ∨ ∃ t buf off, i = readInstr t buf off) ∧
    (responseOf i s = some (.error .refused) →
      (∃ n, i = .taskFromOffset n) ∨ (∃ t buf off v, i = writeInstr t buf off v ∧ i.wf = false) ∨
      (∃ id fs, i = .msgEncode id fs) ∨ (∃ m, i = .frameEnc m) ∨ (∃ id n, i = .msgNew id n) ∨
      ∃ m buf, i = .msgSetPayload m buf)

/-- R37, the spec's own choice D4: the four STATUS codes. -/
def Obligations.StatusCodesAreTheTable : Prop :=
  (∀ r, statusCode (.ok r) = 0#2) ∧ statusCode (.error .lengthMismatch) = 1#2 ∧
  statusCode (.error .bufferRange) = 2#2 ∧ statusCode (.error .refused) = 3#2

/-- R31 to R35: the reset state meets the invariant of the scanner registers. -/
def Obligations.ResetMeetsInvariant : Prop := State.reset.Inv

/-- R31 to R35, R213: every step keeps it: between operations the scanner registers are those of a finished scan,
SUCCESS standing at the least well-formed frame of SC.BUF and FAILURE meaning there is none. -/
def Obligations.StepKeepsScannerAtRest : Prop :=
  ∀ s t : State, s.Inv → step s = .next t → t.Inv

/-! ### Address Codec -/

/-- R120: ADDR_PACK. -/
def Obligations.AddrPackPutsNodeAboveTask : Prop :=
  ∀ (s : State) (task : TaskId) (node : NodeId), (encode (.addrPack task node)).op = 0x00#8 ∧
    ∃ a : Addr11, a.toNat = node.toNat * 2 ^ 5 + task.toNat ∧
      exec (.addrPack task node) s = .next { s with lastResponse := some (.ok (.addr a)), free := s.free + 1 }

/-- R121: ADDR_UNPACK. -/
def Obligations.AddrUnpackSplitsTaskAndNode : Prop :=
  ∀ (s : State) (a : Addr11), (encode (.addrUnpack a)).op = 0x01#8 ∧
    ∃ (task : TaskId) (node : NodeId), task.toNat = a.toNat % 2 ^ 5 ∧ node.toNat = a.toNat / 2 ^ 5 ∧
      exec (.addrUnpack a) s = .next { s with lastResponse := some (.ok (.taskNode task node)), free := s.free + 1 }

/-- R122: ADDR_PACK and ADDR_UNPACK invert each other, both ways. -/
def Obligations.AddressCodecIsBijection : Prop :=
  (∀ (s s' : State) (task : TaskId) (node : NodeId), ∃ a,
    responseOf (.addrPack task node) s = some (.ok (.addr a)) ∧
    responseOf (.addrUnpack a) s' = some (.ok (.taskNode task node))) ∧
  ∀ (s s' : State) (a : Addr11), ∃ task node,
    responseOf (.addrUnpack a) s = some (.ok (.taskNode task node)) ∧
    responseOf (.addrPack task node) s' = some (.ok (.addr a))

/-- R124, the spec's own reading D15: TASK_FROM_OFFSET adds without wrap and refuses what is no TaskId or is
TASK_BROADCAST. -/
def Obligations.TaskFromOffsetAddsOrRefuses : Prop :=
  ∀ (s : State) (n : BitVec 5), (encode (.taskFromOffset n)).op = 0x02#8 ∧
    (s.params.taskOffsetBase.val + n.toNat < 32 →
      s.params.taskOffsetBase.val + n.toNat ≠ s.params.taskBroadcast.toNat →
      ∃ task : TaskId, task.toNat = s.params.taskOffsetBase.val + n.toNat ∧
        exec (.taskFromOffset n) s =
          .next { s with lastResponse := some (.ok (.task task)), free := s.free + 1 }) ∧
    (32 ≤ s.params.taskOffsetBase.val + n.toNat ∨
      s.params.taskOffsetBase.val + n.toNat = s.params.taskBroadcast.toNat →
      exec (.taskFromOffset n) s =
        .next { s with lastResponse := some (.error .refused), free := s.free + 1 })

/-! ### Header Codec -/

/-- R140: HDR_PACK. -/
def Obligations.HdrPackLaysOutThreeFields : Prop :=
  ∀ (s : State) (src dst : Addr11) (id : MessageId), (encode (.hdrPack src dst id)).op = 0x10#8 ∧
    ∃ h : Hdr32, h.toNat = id.toNat * 2 ^ 22 + dst.toNat * 2 ^ 11 + src.toNat ∧
      exec (.hdrPack src dst id) s = .next { s with lastResponse := some (.ok (.hdr h)), free := s.free + 1 }

/-- R141: HDR_UNPACK. -/
def Obligations.HdrUnpackSplitsThreeFields : Prop :=
  ∀ (s : State) (h : Hdr32), (encode (.hdrUnpack h)).op = 0x11#8 ∧
    ∃ (src dst : Addr11) (id : MessageId), src.toNat = h.toNat % 2 ^ 11 ∧
      dst.toNat = h.toNat / 2 ^ 11 % 2 ^ 11 ∧ id.toNat = h.toNat / 2 ^ 22 ∧
      exec (.hdrUnpack h) s =
        .next { s with lastResponse := some (.ok (.header src dst id)), free := s.free + 1 }

/-- R142: HDR_PACK and HDR_UNPACK invert each other, both ways. -/
def Obligations.HeaderCodecIsBijection : Prop :=
  (∀ (s s' : State) (src dst : Addr11) (id : MessageId), ∃ h,
    responseOf (.hdrPack src dst id) s = some (.ok (.hdr h)) ∧
    responseOf (.hdrUnpack h) s' = some (.ok (.header src dst id))) ∧
  ∀ (s s' : State) (h : Hdr32), ∃ src dst id,
    responseOf (.hdrUnpack h) s = some (.ok (.header src dst id)) ∧
    responseOf (.hdrPack src dst id) s' = some (.ok (.hdr h))

/-! ### Scalar Field Codec -/

/-- R152 to R159 with R151 (whose NEXT = OFF + n is the spec's own reading D17): a WR_<T> that fits stores the bytes
of its value, least significant first, in a buffer of the same length whose other bytes are those of the operand. -/
def Obligations.WriteStoresLeastSignificantFirst : Prop :=
  ∀ (s : State) (t : ScalarType) (buf : Buffer) (off : Nat) (v : Int),
    scalarMin t ≤ v → v ≤ scalarMax t → off + scalarWidth t ≤ buf.length →
    ∃ out : Buffer,
      exec (writeInstr t buf off v) s =
        .next { s with lastResponse := some (.ok (.written out (off + scalarWidth t))), free := s.free + 1 } ∧
      out.length = buf.length ∧
      (∀ i, i < scalarWidth t → out[off + i]? = some (some (BitVec.ofInt 8 (v / 256 ^ i)))) ∧
      ∀ j, j < off ∨ off + scalarWidth t ≤ j → out[j]? = buf[j]?

/-- R160 to R167 with R151 (NEXT is D17's): a RD_<T> that fits gives the value of its type whose pattern is the sum of
the bytes, byte `i` weighing 256^i; a byte that is UNSPECIFIED may be any. -/
def Obligations.ReadGivesTheValueOfTheBytes : Prop :=
  ∀ (s : State) (t : ScalarType) (buf : Buffer) (off : Nat), off + scalarWidth t ≤ buf.length →
    ∃ (v : Int) (b : Nat → Byte),
      exec (readInstr t buf off) s =
        .next { s with lastResponse := some (.ok (.value v (off + scalarWidth t))), free := s.free + 1 } ∧
      (∀ i x, i < scalarWidth t → buf[off + i]? = some (some x) → b i = x) ∧
      scalarMin t ≤ v ∧ v ≤ scalarMax t ∧
      v % (256 ^ scalarWidth t : Int) = (weightedSum b (scalarWidth t) : Int)

/-- R151, R255, the spec's own choice D17: an access that does not fit answers BUFFER_RANGE, with no byte written and
no value. -/
def Obligations.AccessOutsideBufferIsBufferRange : Prop :=
  ∀ (s : State) (t : ScalarType) (buf : Buffer) (off : Nat) (v : Int), buf.length < off + scalarWidth t →
    exec (readInstr t buf off) s =
      .next { s with lastResponse := some (.error .bufferRange), free := s.free + 1 } ∧
    (scalarMin t ≤ v → v ≤ scalarMax t → exec (writeInstr t buf off v) s =
      .next { s with lastResponse := some (.error .bufferRange), free := s.free + 1 })

/-- R101, R253, R258(b), the spec's own choice D5: a VAL outside its type is refused, fitting or not. -/
def Obligations.ValueOutsideTypeIsRefused : Prop :=
  ∀ (s : State) (t : ScalarType) (buf : Buffer) (off : Nat) (v : Int), v < scalarMin t ∨ scalarMax t < v →
    exec (writeInstr t buf off v) s =
      .next { s with lastResponse := some (.error .refused), free := s.free + 1 }

/-- R84, R100: the select code of a scalar operation is unit 2, OP[3] the direction, OP[2:0] the type code. -/
def Obligations.ScalarSelectHoldsDirectionAndType : Prop :=
  ∀ (t : ScalarType) (buf : Buffer) (off : Nat) (v : Int),
    (encode (writeInstr t buf off v)).op.toNat = 0x20 + (codeOfScalarType t).toNat ∧
    (encode (readInstr t buf off)).op.toNat = 0x28 + (codeOfScalarType t).toNat ∧
    2 ^ ((codeOfScalarType t).toNat / 2) = scalarWidth t ∧
    ((codeOfScalarType t).toNat % 2 = 1 ↔ scalarMin t < 0)

/-- R168: reading where a value of the same type was written gives the value, and both return NEXT = OFF + n. -/
def Obligations.ReadAfterWriteGivesTheValue : Prop :=
  ∀ (s s' : State) (t : ScalarType) (buf : Buffer) (off : Nat) (v : Int),
    scalarMin t ≤ v → v ≤ scalarMax t → off + scalarWidth t ≤ buf.length →
    ∃ out, responseOf (writeInstr t buf off v) s = some (.ok (.written out (off + scalarWidth t))) ∧
      responseOf (readInstr t out off) s' = some (.ok (.value v (off + scalarWidth t)))

/-- R56: inside a written 4-byte value a 1-byte read sees its byte and a 2-byte read its upper half. -/
def Obligations.NarrowReadSeesPartOfWideWrite : Prop :=
  ∀ (s s' : State) (buf : Buffer) (off : Nat) (u : BitVec 32), off + 4 ≤ buf.length →
    ∃ out, responseOf (.wrU32 buf off u.toNat) s = some (.ok (.written out (off + 4))) ∧
      (∀ i, i < 4 → responseOf (.rdU8 out (off + i)) s' =
        some (.ok (.value ((u.extractLsb' (8 * i) 8).toNat : Int) (off + i + 1)))) ∧
      responseOf (.rdU16 out (off + 2)) s' = some (.ok (.value ((u.extractLsb' 16 16).toNat : Int) (off + 4)))

/-- R170 (its refusal of a total above 247 is the spec's own choice D25, its UNSPECIFIED Addresses D16; that a value
outside its type is refused is D5 and D27 with R101, R253, R258(b) and log 8): MSG_ENCODE of fields that are in
their types and fit gives the Message whose payload is the fields' bytes in order, with no padding. -/
def Obligations.MsgEncodeConcatenatesFields : Prop :=
  ∀ (s : State) (id : MessageId) (fs : List (ScalarType × Int)),
    (encode (.msgEncode id fs)).op = 0x30#8 ∧
    ((∀ f ∈ fs, scalarMin f.1 ≤ f.2 ∧ f.2 ≤ scalarMax f.1) → (fs.map fun f => scalarWidth f.1).sum ≤ 247 →
      ∃ (m : Message) (p : Payload),
        exec (.msgEncode id fs) s = .next { s with lastResponse := some (.ok (.msg m)), free := s.free + 1 } ∧
        m = { msgId := some id, src := none, dst := none, payload := some p, valid := true } ∧
        p.val.length = (fs.map fun f => scalarWidth f.1).sum ∧
        ∀ pre f post, fs = pre ++ f :: post → ∀ i, i < scalarWidth f.1 →
          p.val[(pre.map fun g => scalarWidth g.1).sum + i]? = some (some (BitVec.ofInt 8 (f.2 / 256 ^ i)))) ∧
    (247 < (fs.map fun f => scalarWidth f.1).sum ∨ (∃ f ∈ fs, f.2 < scalarMin f.1 ∨ scalarMax f.1 < f.2) →
      exec (.msgEncode id fs) s = .next { s with lastResponse := some (.error .refused), free := s.free + 1 })

/-- R171: MSG_ENCODE is MSG_NEW with the total width, then one WR_<T_i> per value at the running offset. -/
def Obligations.MsgEncodeIsNewThenWrites : Prop :=
  ∀ (s : State) (id : MessageId) (fs : List (ScalarType × Int)),
    (∀ f ∈ fs, scalarMin f.1 ≤ f.2 ∧ f.2 ≤ scalarMax f.1) → (fs.map fun f => scalarWidth f.1).sum ≤ 247 →
    ∃ (m : Message) (p q : Payload),
      responseOf (.msgNew id (fs.map fun f => scalarWidth f.1).sum) s = some (.ok (.msg m)) ∧
      m.payload = some p ∧ writeAll s p.val 0 fs = some q.val ∧
      responseOf (.msgEncode id fs) s = some (.ok (.msg { m with payload := some q }))

/-- R172, R252 (D18 where the source is silent): MSG_DECODE of a payload as long as the fields or longer gives their
values in order, and of a shorter one answers LENGTH_MISMATCH with no value. -/
def Obligations.MsgDecodeReadsFieldsInOrder : Prop :=
  ∀ (s : State) (m : Message) (p : Payload) (ts : List ScalarType), m.payload = some p →
    (encode (.msgDecode m ts)).op = 0x31#8 ∧
    ((ts.map scalarWidth).sum ≤ p.val.length → ∃ vs,
      exec (.msgDecode m ts) s = .next { s with lastResponse := some (.ok (.vals vs)), free := s.free + 1 } ∧
      vs.length = ts.length ∧
      ∀ pre t post, ts = pre ++ t :: post → ∃ (v : Int) (b : Nat → Byte), vs[pre.length]? = some v ∧
        (∀ i x, i < scalarWidth t → p.val[(pre.map scalarWidth).sum + i]? = some (some x) → b i = x) ∧
        scalarMin t ≤ v ∧ v ≤ scalarMax t ∧
        v % (256 ^ scalarWidth t : Int) = (weightedSum b (scalarWidth t) : Int)) ∧
    (p.val.length < (ts.map scalarWidth).sum →
      exec (.msgDecode m ts) s =
        .next { s with lastResponse := some (.error .lengthMismatch), free := s.free + 1 })

/-- R173: when the length check passes, MSG_DECODE is one RD_<T_i> per type at the running offset, none of which
leaves the payload. -/
def Obligations.MsgDecodeIsReads : Prop :=
  ∀ (s : State) (m : Message) (p : Payload) (ts : List ScalarType), m.payload = some p →
    (ts.map scalarWidth).sum ≤ p.val.length →
    ∃ vs, readAll s p.val 0 ts = some vs ∧ responseOf (.msgDecode m ts) s = some (.ok (.vals vs))

/-- R174: decoding what was encoded, with the same types, gives the values back. -/
def Obligations.MsgDecodeInvertsMsgEncode : Prop :=
  ∀ (s s' : State) (id : MessageId) (fs : List (ScalarType × Int)),
    (∀ f ∈ fs, scalarMin f.1 ≤ f.2 ∧ f.2 ≤ scalarMax f.1) → (fs.map fun f => scalarWidth f.1).sum ≤ 247 →
    ∃ m, responseOf (.msgEncode id fs) s = some (.ok (.msg m)) ∧
      responseOf (.msgDecode m (fs.map (·.1))) s' = some (.ok (.vals (fs.map (·.2))))

/-! ### Frame Encoder -/

/-- R190, R191, R82, R88 (byte order of header and checksum D10, span D6): the frame of a Message with every field
specified and a payload of at most 246 bytes, byte by byte. The checksum is the instance's (R7; its default
instantiation is log 7, PRESUMED) over the span that CRC_COVERS_LEN selects. -/
def Obligations.FrameEncLaysOutTheFrame : Prop :=
  ∀ (s : State) (id : MessageId) (src dst : Address) (p : KnownPayload) (valid : Bool), p.val.length ≤ 246 →
    (encode (.frameEnc (fullMessage id src dst p valid))).op = 0x40#8 ∧
    ∃ f : List Byte,
      exec (.frameEnc (fullMessage id src dst p valid)) s =
        .next { s with lastResponse := some (.ok (.frame (known f))), free := s.free + 1 } ∧
      f.length = p.val.length + 11 ∧
      f[0]? = some 0x1E#8 ∧
      (f[1]?.map BitVec.toNat) = some (p.val.length + 8) ∧
      (∀ i, i < 4 → f[2 + i]? = some (BitVec.ofNat 8 (headerNumber id src dst / 256 ^ i))) ∧
      (∀ i, i < p.val.length → f[6 + i]? = p.val[i]?) ∧
      (∀ i, i < 4 → f[6 + p.val.length + i]? = some (BitVec.ofNat 8 ((checksum s.params.crc
        (if s.params.crcCoversLen then (f.drop 1).take (p.val.length + 5)
          else (f.drop 2).take (p.val.length + 4))).toNat / 256 ^ i))) ∧
      f[10 + p.val.length]? = some 0x1F#8

/-- R83: which field bits stand in each of the four header bytes of a frame. -/
def Obligations.FrameHeaderBytesHoldTheFields : Prop :=
  ∀ (s : State) (id : MessageId) (src dst : Address) (p : KnownPayload) (valid : Bool), p.val.length ≤ 246 →
    ∃ f b2 b3 b4 b5,
      responseOf (.frameEnc (fullMessage id src dst p valid)) s = some (.ok (.frame f)) ∧
      f[2]? = some (some b2) ∧ f[3]? = some (some b3) ∧ f[4]? = some (some b4) ∧ f[5]? = some (some b5) ∧
      (b2 : Byte) = src.node.extractLsb' 0 3 ++ src.task ∧ (b3 : Byte) = dst.task ++ src.node.extractLsb' 3 3 ∧
      (b4 : Byte) = id.extractLsb' 0 2 ++ dst.node ∧ (b5 : Byte) = id.extractLsb' 2 8

/-- R190, the spec's own choice D7: a Message whose payload is longer than 246 bytes is refused; no frame. -/
def Obligations.FrameEncRefusesOversizedPayload : Prop :=
  ∀ (s : State) (m : Message) (p : Payload), m.payload = some p → 246 < p.val.length →
    exec (.frameEnc m) s = .next { s with lastResponse := some (.error .refused), free := s.free + 1 }

/-- R190 and U5 (D16), exactly which bytes being the model's reading (log 1): a Message with unset Addresses is framed
too: STX, LEN, ETX and the length are defined, the payload bytes are the operand's, a header byte is UNSPECIFIED when
a field it holds bits of is unset and else holds the bits R83 names, and a checksum byte is UNSPECIFIED exactly when
something the checksum covers is. -/
def Obligations.FrameOfUnsetAddressesIsPartlyUnspecified : Prop :=
  ∀ (s : State) (m : Message) (p : Payload), m.payload = some p → p.val.length ≤ 246 →
    ∃ f : Buffer,
      exec (.frameEnc m) s = .next { s with lastResponse := some (.ok (.frame f)), free := s.free + 1 } ∧
      f.length = p.val.length + 11 ∧ f[0]? = some (some 0x1E#8) ∧
      f[1]? = some (some (BitVec.ofNat 8 (p.val.length + 8))) ∧ f[10 + p.val.length]? = some (some 0x1F#8) ∧
      (∀ i, i < p.val.length → f[6 + i]? = p.val[i]?) ∧
      (m.src = none → f[2]? = some none ∧ f[3]? = some none) ∧
      (m.dst = none → f[3]? = some none ∧ f[4]? = some none) ∧
      (m.msgId = none → f[4]? = some none ∧ f[5]? = some none) ∧
      (∀ a, m.src = some a → f[2]? = some (some (a.node.extractLsb' 0 3 ++ a.task))) ∧
      (∀ a d, m.src = some a → m.dst = some d → f[3]? = some (some (d.task ++ a.node.extractLsb' 3 3))) ∧
      (∀ d id, m.dst = some d → m.msgId = some id → f[4]? = some (some (id.extractLsb' 0 2 ++ d.node))) ∧
      (∀ id, m.msgId = some id → f[5]? = some (some (id.extractLsb' 2 8))) ∧
      ∀ i, i < 4 →
        (m.src = none ∨ m.dst = none ∨ m.msgId = none ∨ none ∈ p.val → f[6 + p.val.length + i]? = some none) ∧
        (m.src ≠ none → m.dst ≠ none → m.msgId ≠ none → none ∉ p.val →
          ∃ b, f[6 + p.val.length + i]? = some (some b))

/-- U4 (log 1, 2): of a Message whose payload is UNSPECIFIED as a whole, the invalid Message of R210, FRAME_ENC and
MSG_DECODE complete with an UNSPECIFIED result: a refusal or a frame no byte of which is specified; LENGTH_MISMATCH
or some values of the types. -/
def Obligations.InvalidMessageGivesUnspecifiedFrameAndValues : Prop :=
  ∀ (s : State) (m : Message) (ts : List ScalarType), m.payload = none →
    (∃ r, exec (.frameEnc m) s = .next { s with lastResponse := some r, free := s.free + 1 } ∧
      (r = .error .refused ∨ ∃ n, r = .ok (.frame (List.replicate n none)))) ∧
    ∃ r, exec (.msgDecode m ts) s = .next { s with lastResponse := some r, free := s.free + 1 } ∧
      (r = .error .lengthMismatch ∨ ∃ vs, r = .ok (.vals vs) ∧ vs.length = ts.length ∧
        ∀ (i : Nat) (t : ScalarType) (v : Int), ts[i]? = some t → vs[i]? = some v →
          scalarMin t ≤ v ∧ v ≤ scalarMax t)

/-! ### Frame Decoder -/

/-- R200, R209, R210, R213 (D8 to D11 where the source is silent): FRAME_DEC always completes with STATUS OK; its
Message is the one of the least index with a well-formed frame, or the invalid Message when there is none. The input
is what the operand spells, an UNSPECIFIED byte being any (log 2). The checksum is the instance's (R7; its default
instantiation is log 7, PRESUMED). -/
def Obligations.FrameDecReturnsTheLeastFrame : Prop :=
  ∀ (s : State) (bytes : Buffer), (encode (.frameDec bytes)).op = 0x41#8 ∧
    ∃ (B : List Byte) (sc : Scanner) (m : Message),
      exec (.frameDec bytes) s =
        .next { s with scanner := sc, lastResponse := some (.ok (.msg m)), free := s.free + 1 } ∧
      B.length = bytes.length ∧ (∀ (i : Nat) (x : Byte), bytes[i]? = some (some x) → B[i]? = some x) ∧
      (∀ i, frameAt (checksum s.params.crc) s.params.crcCoversLen B i = true →
        (∀ j, j < i → frameAt (checksum s.params.crc) s.params.crcCoversLen B j = false) →
        ∃ (id : MessageId) (src dst : Address) (p : KnownPayload) (len : Byte), B[i + 1]? = some len ∧
          m = fullMessage id src dst p true ∧
          p.val = (B.drop (i + 6)).take (len.toNat - 8) ∧ p.val.length + 8 = len.toNat ∧
          ∀ k, k < 4 → B[i + 2 + k]? = some (BitVec.ofNat 8 (headerNumber id src dst / 256 ^ k))) ∧
      ((∀ i, frameAt (checksum s.params.crc) s.params.crcCoversLen B i = false) →
        m = { msgId := none, src := none, dst := none, payload := none, valid := false })

/-- R213 for any checksum function and either span: the step machine ends in SUCCESS at the least index with a
well-formed frame, or in FAILURE when there is none. -/
def Obligations.ScannerFindsTheLeastFrame : Prop :=
  ∀ (crc : List Byte → BitVec 32) (coversLen : Bool) (B : List Byte) (k : Nat),
    ScannerAtRest crc coversLen (scan crc coversLen B k) ∧ (scan crc coversLen B k).buf = B ∧
    (firstFrame crc coversLen B = none ↔ (scan crc coversLen B k).state = .failure) ∧
    ∀ i, firstFrame crc coversLen B = some i ↔
      (scan crc coversLen B k).state = .success ∧ (scan crc coversLen B k).stx = i

/-- R203 to R208 and R212: the scanner's transition table, for any checksum function and either span. -/
def Obligations.ScannerFollowsTheTransitionTable : Prop :=
  ∀ (crc : List Byte → BitVec 32) (cov : Bool) (sc : Scanner),
    (sc.state = .searchStx → sc.buf.length ≤ sc.pos → scanStep crc cov sc = { sc with state := .failure }) ∧
    (sc.state = .searchStx → sc.buf[sc.pos]? = some 0x1E#8 →
      scanStep crc cov sc = { sc with state := .readLen, stx := sc.pos }) ∧
    (∀ b, sc.state = .searchStx → sc.buf[sc.pos]? = some b → b ≠ 0x1E#8 →
      scanStep crc cov sc = { sc with pos := sc.pos + 1 }) ∧
    (sc.state = .readLen → sc.buf.length ≤ sc.stx + 1 →
      scanStep crc cov sc = { sc with state := .searchStx, pos := sc.stx + 1 }) ∧
    (∀ b, sc.state = .readLen → sc.buf[sc.stx + 1]? = some b → sc.buf.length < sc.stx + b.toNat + 3 →
      scanStep crc cov sc = { sc with state := .searchStx, len := b, pos := sc.stx + 1 }) ∧
    (∀ b, sc.state = .readLen → sc.buf[sc.stx + 1]? = some b → sc.stx + b.toNat + 3 ≤ sc.buf.length →
      scanStep crc cov sc = { sc with state := .checkBodyBounds, len := b }) ∧
    (sc.state = .checkBodyBounds → sc.len.toNat < 8 →
      scanStep crc cov sc = { sc with state := .searchStx, pos := sc.stx + 1 }) ∧
    (sc.state = .checkBodyBounds → 8 ≤ sc.len.toNat → scanStep crc cov sc = { sc with state := .verifyCrc }) ∧
    (∀ b0 b1 b2 b3 : Byte, sc.state = .verifyCrc → 8 ≤ sc.len.toNat →
      sc.buf[sc.stx + sc.len.toNat - 2]? = some b0 → sc.buf[sc.stx + sc.len.toNat - 1]? = some b1 →
      sc.buf[sc.stx + sc.len.toNat]? = some b2 → sc.buf[sc.stx + sc.len.toNat + 1]? = some b3 →
      scanStep crc cov sc =
        if crc (if cov then (sc.buf.drop (sc.stx + 1)).take (sc.len.toNat - 3)
            else (sc.buf.drop (sc.stx + 2)).take (sc.len.toNat - 4)) = b3 ++ b2 ++ b1 ++ b0
        then { sc with state := .verifyEtx } else { sc with state := .searchStx, pos := sc.stx + 1 }) ∧
    (sc.state = .verifyEtx → sc.buf[sc.stx + sc.len.toNat + 2]? ≠ some 0x1F#8 →
      scanStep crc cov sc = { sc with state := .searchStx, pos := sc.stx + 1 }) ∧
    (sc.state = .verifyEtx → sc.buf[sc.stx + sc.len.toNat + 2]? = some 0x1F#8 →
      scanStep crc cov sc = { sc with state := .success }) ∧
    (sc.state = .success ∨ sc.state = .failure → scanStep crc cov sc = sc)

/-- R214: every scan is over after 6L + 1 steps, and SC.POS never decreases on the way nor passes L. -/
def Obligations.ScanEndsWithinSixLPlusOneSteps : Prop :=
  ∀ (crc : List Byte → BitVec 32) (cov : Bool) (B : List Byte) (k : Nat),
    ((scanSteps crc cov (6 * B.length + 1) (scanStart B k)).state = .success ∨
      (scanSteps crc cov (6 * B.length + 1) (scanStart B k)).state = .failure) ∧
    ∀ n, (scanSteps crc cov n (scanStart B k)).pos ≤ (scanSteps crc cov (n + 1) (scanStart B k)).pos ∧
      (scanSteps crc cov n (scanStart B k)).pos ≤ B.length

/-- R215: for any Message with every field specified and a payload of at most 246 bytes, whatever its VALID, the
checksum function and the span: the frame FRAME_ENC gives decodes, in any state with the same two, to the Message with VALID
true, which MSG_EQ finds equal. -/
def Obligations.FrameRoundTrip : Prop :=
  ∀ (s s' : State) (id : MessageId) (src dst : Address) (p : KnownPayload) (valid : Bool),
    p.val.length ≤ 246 →
    s'.params.crc = s.params.crc → s'.params.crcCoversLen = s.params.crcCoversLen →
    ∃ f, responseOf (.frameEnc (fullMessage id src dst p valid)) s = some (.ok (.frame f)) ∧
      responseOf (.frameDec f) s' = some (.ok (.msg (fullMessage id src dst p true))) ∧
      responseOf (.msgEq (fullMessage id src dst p valid) (fullMessage id src dst p true)) s' =
        some (.ok (.equal true))

/-- R215 for any checksum function (R7): the round trip does not rest on CRC-32. -/
def Obligations.FrameRoundTripForAnyChecksum : Prop :=
  ∀ (crc : List Byte → BitVec 32) (cov : Bool) (id : MessageId) (src dst : Address) (p : KnownPayload)
    (valid : Bool) (k k' : Nat), p.val.length ≤ 246 →
    ∃ f : List Byte, encodeFrame crc cov (fullMessage id src dst p valid) k = .ok (.frame (known f)) ∧
      scanMessage (scan crc cov f k') = fullMessage id src dst p true

/-- R216, R217: garbage before a frame, none of whose bytes starts a well-formed frame, and any bytes after it leave
the decoded Message as it was. -/
def Obligations.ResyncFindsTheFrameAfterGarbage : Prop :=
  ∀ (s s' : State) (id : MessageId) (src dst : Address) (p : KnownPayload) (valid : Bool) (G X f : List Byte),
    p.val.length ≤ 246 →
    s'.params.crc = s.params.crc → s'.params.crcCoversLen = s.params.crcCoversLen →
    responseOf (.frameEnc (fullMessage id src dst p valid)) s = some (.ok (.frame (known f))) →
    (∀ i, i < G.length → frameAt (checksum s.params.crc) s.params.crcCoversLen (G ++ f ++ X) i = false) →
    responseOf (.frameDec (known (G ++ f ++ X))) s' = some (.ok (.msg (fullMessage id src dst p true)))

/-- R263, G2 (the spec marks it as general knowledge; log 7): CRC-32/ISO-HDLC, the default checksum function, tells
apart two sequences that differ in exactly one byte. -/
def Obligations.ChecksumDetectsOneChangedByte : Prop := DetectsOneChangedByte crc32IsoHdlc

/-- R218 with its proviso on the checksum as a hypothesis (G2), for any such function and either span: a frame one
payload byte of which is changed is no frame at index 0. -/
def Obligations.ChangedPayloadByteBreaksTheFrame : Prop :=
  ∀ (crc : List Byte → BitVec 32) (cov : Bool) (id : MessageId) (src dst : Address) (p : KnownPayload)
    (valid : Bool) (k : Nat) (f : List Byte) (j : Nat) (b : Byte), DetectsOneChangedByte crc →
    p.val.length ≤ 246 → encodeFrame crc cov (fullMessage id src dst p valid) k = .ok (.frame (known f)) →
    j < p.val.length → f[6 + j]? ≠ some b → frameAt crc cov (f.set (6 + j) b) 0 = false

/-- R218, with its proviso, of an instance whose checksum is CRC-32/ISO-HDLC (log 7): a frame one payload byte of
which is changed is no frame at index 0, and decodes as invalid unless a later index starts one. -/
def Obligations.ChangedPayloadByteIsRejected : Prop :=
  ∀ (s s' : State) (id : MessageId) (src dst : Address) (p : KnownPayload) (valid : Bool) (f : List Byte)
    (j : Nat) (b : Byte), s.params.crc = .isoHdlc → p.val.length ≤ 246 →
    s'.params.crc = s.params.crc → s'.params.crcCoversLen = s.params.crcCoversLen →
    responseOf (.frameEnc (fullMessage id src dst p valid)) s = some (.ok (.frame (known f))) →
    j < p.val.length → f[6 + j]? ≠ some b →
    frameAt (checksum s.params.crc) s.params.crcCoversLen (f.set (6 + j) b) 0 = false ∧
    ((∀ i, 1 ≤ i → frameAt (checksum s.params.crc) s.params.crcCoversLen (f.set (6 + j) b) i = false) →
      responseOf (.frameDec (known (f.set (6 + j) b))) s' = some (.ok (.msg
        { msgId := none, src := none, dst := none, payload := none, valid := false })))

/-- R219: a frame cut below its full length is no frame at index 0, and decodes as invalid unless a later index starts
one; a buffer with no well-formed frame anywhere decodes as invalid. -/
def Obligations.TruncatedFrameIsRejected : Prop :=
  (∀ (s s' : State) (id : MessageId) (src dst : Address) (p : KnownPayload) (valid : Bool) (f : List Byte) (n : Nat),
    p.val.length ≤ 246 → s'.params.crc = s.params.crc → s'.params.crcCoversLen = s.params.crcCoversLen →
    responseOf (.frameEnc (fullMessage id src dst p valid)) s = some (.ok (.frame (known f))) → n < f.length →
    frameAt (checksum s.params.crc) s.params.crcCoversLen (f.take n) 0 = false ∧
    ((∀ i, 1 ≤ i → frameAt (checksum s.params.crc) s.params.crcCoversLen (f.take n) i = false) →
      responseOf (.frameDec (known (f.take n))) s' = some (.ok (.msg
        { msgId := none, src := none, dst := none, payload := none, valid := false })))) ∧
  ∀ (s : State) (B : List Byte), (∀ i, frameAt (checksum s.params.crc) s.params.crcCoversLen B i = false) →
    responseOf (.frameDec (known B)) s = some (.ok (.msg
      { msgId := none, src := none, dst := none, payload := none, valid := false }))

/-! ### Message entity -/

/-- R230 (D16, D25): MSG_NEW gives a valid Message of the declared length whose payload bytes and Addresses are
UNSPECIFIED, and refuses a length no Message holds. -/
def Obligations.MsgNewGivesUnspecifiedFields : Prop :=
  ∀ (s : State) (id : MessageId) (n : Nat), (encode (.msgNew id n)).op = 0x50#8 ∧
    (n ≤ 247 → ∃ (m : Message) (p : Payload),
      exec (.msgNew id n) s = .next { s with lastResponse := some (.ok (.msg m)), free := s.free + 1 } ∧
      m = { msgId := some id, src := none, dst := none, payload := some p, valid := true } ∧
      p.val = List.replicate n none) ∧
    (247 < n →
      exec (.msgNew id n) s = .next { s with lastResponse := some (.error .refused), free := s.free + 1 })

/-- R231, R232: the setters replace one Address and copy every other field, VALID included. Of a Message whose payload
is UNSPECIFIED as a whole, the invalid Message of R210, the whole result is UNSPECIFIED, as U4 says (log 1 says which
Messages the model takes U4 to cover). -/
def Obligations.SettersReplaceOneAddress : Prop :=
  ∀ (s : State) (m : Message) (a : Address),
    (encode (.msgSetSrc m a)).op = 0x51#8 ∧ (encode (.msgSetDst m a)).op = 0x52#8 ∧
    (m.payload ≠ none →
      exec (.msgSetSrc m a) s =
        .next { s with lastResponse := some (.ok (.msg (Message.mk m.msgId (some a) m.dst m.payload m.valid))),
                       free := s.free + 1 } ∧
      exec (.msgSetDst m a) s =
        .next { s with lastResponse := some (.ok (.msg (Message.mk m.msgId m.src (some a) m.payload m.valid))),
                       free := s.free + 1 }) ∧
    (m.payload = none → ∃ v w,
      exec (.msgSetSrc m a) s =
        .next { s with lastResponse := some (.ok (.msg (Message.mk none none none none v))), free := s.free + 1 } ∧
      exec (.msgSetDst m a) s =
        .next { s with lastResponse := some (.ok (.msg (Message.mk none none none none w))), free := s.free + 1 })

/-- R233: MSG_GET_PAYLOAD gives the payload, all its bytes in order, whatever VALID is; of a payload that is
UNSPECIFIED as a whole (R210, U4) it gives some bytes, in the Message type's bound (R29, D8; log 2). -/
def Obligations.MsgGetPayloadReadsThePayload : Prop :=
  ∀ (s : State) (m : Message), (encode (.msgGetPayload m)).op = 0x53#8 ∧
    ∃ b, exec (.msgGetPayload m) s =
        .next { s with lastResponse := some (.ok (.payload b)), free := s.free + 1 } ∧
      b.length ≤ 247 ∧ ∀ p : Payload, m.payload = some p → b = p.val

/-- R235 (LENGTH = N is the spec's own choice D23): MSG_GET_LENGTH gives the payload's length; of a payload that is
UNSPECIFIED as a whole (R210, U4) some length, in the Message type's bound (R29, D8; log 2). -/
def Obligations.MsgGetLengthReadsThePayloadLength : Prop :=
  ∀ (s : State) (m : Message), (encode (.msgGetLength m)).op = 0x55#8 ∧
    ∃ n, exec (.msgGetLength m) s =
        .next { s with lastResponse := some (.ok (.length n)), free := s.free + 1 } ∧
      n ≤ 247 ∧ ∀ p : Payload, m.payload = some p → n = p.val.length

/-- R234, the refusal being the spec's own choice D25: MSG_SET_PAYLOAD. Of a Message whose payload is UNSPECIFIED as a
whole, the invalid Message of R210, the whole result is UNSPECIFIED, as U4 says (log 1 says which Messages the model
takes U4 to cover, and that the bound is looked at first). -/
def Obligations.MsgSetPayloadReplacesThePayload : Prop :=
  ∀ (s : State) (m : Message) (b : Buffer), (encode (.msgSetPayload m b)).op = 0x54#8 ∧
    (b.length ≤ 247 → m.payload ≠ none → ∃ p : Payload, p.val = b ∧ exec (.msgSetPayload m b) s =
      .next { s with lastResponse := some (.ok (.msg (Message.mk m.msgId m.src m.dst (some p) m.valid))),
                     free := s.free + 1 }) ∧
    (b.length ≤ 247 → m.payload = none → ∃ v, exec (.msgSetPayload m b) s =
      .next { s with lastResponse := some (.ok (.msg (Message.mk none none none none v))), free := s.free + 1 }) ∧
    (247 < b.length →
      exec (.msgSetPayload m b) s = .next { s with lastResponse := some (.error .refused), free := s.free + 1 })

/-- R237 (that VALID is not compared is the spec's own choice D24): MSG_EQ always completes, and of two Messages with
every field specified it says whether MSGID, both Addresses and the payloads agree, VALID aside. -/
def Obligations.MsgEqComparesFourComponents : Prop :=
  (∀ (s : State) (a b : Message), (encode (.msgEq a b)).op = 0x56#8 ∧ ∃ e,
    exec (.msgEq a b) s = .next { s with lastResponse := some (.ok (.equal e)), free := s.free + 1 }) ∧
  ∀ (s : State) (ia ib : MessageId) (sa sb da db : Address) (pa pb : KnownPayload) (va vb : Bool), ∃ e : Bool,
    exec (.msgEq (fullMessage ia sa da pa va) (fullMessage ib sb db pb vb)) s =
      .next { s with lastResponse := some (.ok (.equal e)), free := s.free + 1 } ∧
    (e = true ↔ ia = ib ∧ sa.task = sb.task ∧ sa.node = sb.node ∧ da.task = db.task ∧ da.node = db.node ∧
      pa.val = pb.val)

/-- R38, first half: VALID of a Message an operation gives: true from MSG_NEW and MSG_ENCODE, copied by the setters and
MSG_SET_PAYLOAD (but of a Message whose payload is UNSPECIFIED as a whole, where U4 leaves the whole result open,
log 1), and from FRAME_DEC true exactly when the scan ends in SUCCESS; no other operation gives a Message. -/
def Obligations.ValidIsWrittenByRule : Prop :=
  ∀ (i : Instr) (s t : State) (m : Message), exec i s = .next t → t.lastResponse = some (.ok (.msg m)) →
    ((∃ id n, i = .msgNew id n) ∧ m.valid = true) ∨ ((∃ id fs, i = .msgEncode id fs) ∧ m.valid = true) ∨
    (∃ m0 a, i = .msgSetSrc m0 a ∧ (m0.payload ≠ none → m.valid = m0.valid)) ∨
    (∃ m0 a, i = .msgSetDst m0 a ∧ (m0.payload ≠ none → m.valid = m0.valid)) ∨
    (∃ m0 b, i = .msgSetPayload m0 b ∧ (m0.payload ≠ none → m.valid = m0.valid)) ∨
    ∃ bytes, i = .frameDec bytes ∧ (t.scanner.state = .success ∧ m.valid = true ∨
      t.scanner.state = .failure ∧ m.valid = false)

/-- R38, second half, and R192: no operation reads VALID: a Message operand with its VALID changed gives the same
frame, values, payload, length and comparison. -/
def Obligations.ValidIsReadByNoOperation : Prop :=
  ∀ (s : State) (m n : Message) (ts : List ScalarType) (v w : Bool),
    responseOf (.frameEnc { m with valid := v }) s = responseOf (.frameEnc m) s ∧
    responseOf (.msgDecode { m with valid := v } ts) s = responseOf (.msgDecode m ts) s ∧
    responseOf (.msgGetPayload { m with valid := v }) s = responseOf (.msgGetPayload m) s ∧
    responseOf (.msgGetLength { m with valid := v }) s = responseOf (.msgGetLength m) s ∧
    responseOf (.msgEq { m with valid := v } { n with valid := w }) s = responseOf (.msgEq m n) s
end

