-- ==== Sys2Proof/Laws/State.lean ====
section
/-! SUPPORT. One lemma per field and update of the state, and what completing a request does. -/

namespace Sys2Proof.Machine

@[simp] theorem State.respond_params (s : State) (r : Response) : (s.respond r).params = s.params := rfl
@[simp] theorem State.respond_scanner (s : State) (r : Response) : (s.respond r).scanner = s.scanner := rfl
@[simp] theorem State.respond_lastResponse (s : State) (r : Response) : (s.respond r).lastResponse = some r := rfl
@[simp] theorem State.respond_requests (s : State) (r : Response) : (s.respond r).requests = s.requests := rfl
@[simp] theorem State.respond_free (s : State) (r : Response) : (s.respond r).free = s.free + 1 := rfl

@[simp] theorem State.withScanner_params (s : State) (sc : Scanner) : (s.withScanner sc).params = s.params := rfl
@[simp] theorem State.withScanner_scanner (s : State) (sc : Scanner) : (s.withScanner sc).scanner = sc := rfl
@[simp] theorem State.withScanner_lastResponse (s : State) (sc : Scanner) : (s.withScanner sc).lastResponse = s.lastResponse := rfl
@[simp] theorem State.withScanner_requests (s : State) (sc : Scanner) : (s.withScanner sc).requests = s.requests := rfl
@[simp] theorem State.withScanner_free (s : State) (sc : Scanner) : (s.withScanner sc).free = s.free := rfl

@[simp] theorem State.applyReset_params (s : State) : (s.applyReset).params = s.params := rfl
@[simp] theorem State.applyReset_scanner (s : State) : (s.applyReset).scanner = Scanner.reset := rfl
@[simp] theorem State.applyReset_lastResponse (s : State) : (s.applyReset).lastResponse = none := rfl
@[simp] theorem State.applyReset_requests (s : State) : (s.applyReset).requests = s.requests := rfl
@[simp] theorem State.applyReset_free (s : State) : (s.applyReset).free = s.free := rfl

@[simp] theorem State.withFetchWord_params (s : State) (n w : Nat) : (s.withFetchWord n w).params = s.params := rfl
@[simp] theorem State.withFetchWord_scanner (s : State) (n w : Nat) : (s.withFetchWord n w).scanner = s.scanner := rfl
@[simp] theorem State.withFetchWord_lastResponse (s : State) (n w : Nat) : (s.withFetchWord n w).lastResponse = s.lastResponse := rfl
@[simp] theorem State.withFetchWord_requests (s : State) (n w : Nat) : (s.withFetchWord n w).requests = { op := BitVec.ofNat 8 w, operands := Operands.zero } :: s.requests := rfl
@[simp] theorem State.withFetchWord_free (s : State) (n w : Nat) : (s.withFetchWord n w).free = s.free := rfl

/-- Completing a request always answers a next state, and says all of it. -/
theorem complete_eq (r : Response) (s : State) : complete r s = .next (s.respond r) := rfl

theorem complete_next {r : Response} {s t : State} (h : complete r s = .next t) : t = s.respond r := by
  cases h
  rfl

theorem fetch_cons {s : State} {r : Request} {rest : List Request} (h : s.requests = r :: rest) :
    fetch s = some (r, { s with requests := rest }) := by
  simp [fetch, h]

theorem fetch_nil {s : State} (h : s.requests = []) : fetch s = none := by
  simp [fetch, h]

/-- Taking a request changes the list of requests alone. -/
theorem fetch_frame {s s' : State} {r : Request} (h : fetch s = some (r, s')) :
    s.requests = r :: s'.requests ∧ s'.params = s.params ∧ s'.scanner = s.scanner ∧
      s'.lastResponse = s.lastResponse ∧ s'.free = s.free := by
  unfold fetch at h
  split at h
  · cases h
  · next rest hr => cases h; exact ⟨hr, rfl, rfl, rfl, rfl⟩

end Sys2Proof.Machine
end

