-- ==== Sys2Proof/Laws/Operands.lean ====
section
/-! SUPPORT. The laws of the operand forms: byte order, two's complement, slices, writes, UNSPECIFIED bytes, and the
bit fields of ADDR11 and HDR32. -/

namespace Sys2Proof.Machine

/-! ### Byte order -/

theorem fromLe_leBytes (n u : Nat) : fromLe (leBytes n u) = u % 256 ^ n := by
  induction n generalizing u with
  | zero => simp [leBytes, fromLe, Nat.mod_one]
  | succ n ih =>
    rw [leBytes, fromLe, ih, BitVec.toNat_ofNat, show 256 ^ (n + 1) = 256 * 256 ^ n from Nat.pow_succ', Nat.mod_mul]

theorem leBytes_getElem? (n u i : Nat) (h : i < n) :
    (leBytes n u)[i]? = some (BitVec.ofNat 8 (u / 256 ^ i)) := by
  induction n generalizing u i with
  | zero => omega
  | succ n ih =>
    cases i with
    | zero => simp [leBytes]
    | succ i =>
      rw [leBytes, List.getElem?_cons_succ, ih (u / 256) i (by omega), Nat.div_div_eq_div_mul, pow_succ,
        mul_comm (256 ^ i)]

theorem fromLe_lt (bs : List Byte) : fromLe bs < 256 ^ bs.length := by
  induction bs with
  | nil => simp [fromLe]
  | cons b bs ih =>
    have := b.isLt
    rw [fromLe, List.length_cons, pow_succ]
    omega

theorem leBytes_fromLe (bs : List Byte) : leBytes bs.length (fromLe bs) = bs := by
  induction bs with
  | nil => rfl
  | cons b bs ih =>
    have hb := b.isLt
    have h1 : (b.toNat + 256 * fromLe bs) / 256 = fromLe bs := by omega
    rw [List.length_cons, fromLe, leBytes, h1, ih]
    congr 1
    apply BitVec.eq_of_toNat_eq
    rw [BitVec.toNat_ofNat]
    omega

theorem fromLe_eq_weightedSum (bs : List Byte) :
    fromLe bs = weightedSum (fun i => bs.getD i 0#8) bs.length := by
  have key : ∀ (n : Nat) (bs : List Byte), bs.length = n →
      fromLe bs = weightedSum (fun i => bs.getD i 0#8) n := by
    intro n
    induction n with
    | zero => intro bs h; cases bs <;> simp_all [fromLe, weightedSum]
    | succ n ih =>
      intro bs h
      have hne : bs ≠ [] := by rintro rfl; cases h
      obtain ⟨xs, x, rfl⟩ : ∃ xs x, bs = xs ++ [x] := ⟨_, _, (List.dropLast_append_getLast hne).symm⟩
      have hxs : xs.length = n := by simpa using h
      have happ : ∀ (ys : List Byte) (y : Byte), fromLe (ys ++ [y]) = fromLe ys + y.toNat * 256 ^ ys.length := by
        intro ys y
        induction ys with
        | nil => simp [fromLe]
        | cons z zs ihz => simp only [List.cons_append, fromLe, ihz, List.length_cons, pow_succ]; ring
      have hsum : ∀ m, m ≤ n → weightedSum (fun i => (xs ++ [x]).getD i 0#8) m =
          weightedSum (fun i => xs.getD i 0#8) m := by
        intro m hm
        induction m with
        | zero => rfl
        | succ m ihm =>
          rw [weightedSum, weightedSum, ihm (by omega), List.getD_append _ _ _ _ (by omega)]
      rw [happ, ih xs hxs, weightedSum, hsum n le_rfl, hxs]
      rw [List.getD_append_right _ _ _ _ (by omega), hxs, Nat.sub_self]
      rfl
  exact key bs.length bs rfl

/-! ### Scalars -/

theorem scalarInRange_iff (t : ScalarType) (v : Int) :
    scalarInRange t v = true ↔ scalarMin t ≤ v ∧ v ≤ scalarMax t := by
  cases t <;> norm_num [scalarInRange, scalarSigned, scalarWidth, scalarMin, scalarMax] <;> omega

theorem scalarInRange_eq_false_iff (t : ScalarType) (v : Int) :
    scalarInRange t v = false ↔ v < scalarMin t ∨ scalarMax t < v := by
  rw [← Bool.not_eq_true, scalarInRange_iff]
  omega

theorem fieldsInRange_iff (fs : List (ScalarType × Int)) :
    fieldsInRange fs = true ↔ ∀ f ∈ fs, scalarMin f.1 ≤ f.2 ∧ f.2 ≤ scalarMax f.1 := by
  induction fs with
  | nil => simp [fieldsInRange]
  | cons f fs ih => simp [fieldsInRange, scalarInRange_iff, ih]

theorem scalarWidth_pos (t : ScalarType) : 0 < scalarWidth t := by
  cases t <;> decide

theorem totalWidth_eq_sum (ts : List ScalarType) : totalWidth ts = (ts.map scalarWidth).sum := by
  induction ts with
  | nil => rfl
  | cons t ts ih => simp [totalWidth, ih]

@[simp] theorem scalarBytes_length (t : ScalarType) (v : Int) : (scalarBytes t v).length = scalarWidth t :=
  leBytes_length _ _

theorem bitPattern_lt (n : Nat) (v : Int) : bitPattern n v < 256 ^ n := by
  have h : (0 : Int) < 2 ^ (8 * n) := by positivity
  have h1 := Int.emod_lt_of_pos v h
  have h2 := Int.emod_nonneg v h.ne'
  have h3 : (256 : Nat) ^ n = 2 ^ (8 * n) := by rw [pow_mul]; norm_num
  rw [h3, bitPattern]
  zify
  rw [Int.toNat_of_nonneg h2]
  exact_mod_cast h1

/-- A value read from the bytes of its own type is a value of the type. -/
theorem scalarValue_inRange (t : ScalarType) (bs : List Byte) (h : bs.length = scalarWidth t) :
    scalarMin t ≤ scalarValue t bs ∧ scalarValue t bs ≤ scalarMax t := by
  have hl := fromLe_lt bs
  rw [h] at hl
  cases t <;>
    simp only [scalarValue, scalarSigned, scalarWidth, scalarMin, scalarMax, signExtend, reduceIte,
      Bool.false_eq_true] at hl ⊢ <;>
    omega

theorem scalarValue_emod (t : ScalarType) (bs : List Byte) (h : bs.length = scalarWidth t) :
    scalarValue t bs % (256 ^ scalarWidth t : Int) = (fromLe bs : Int) := by
  have hl := fromLe_lt bs
  rw [h] at hl
  cases t <;>
    simp only [scalarValue, scalarSigned, scalarWidth, signExtend, reduceIte, Bool.false_eq_true] at hl ⊢ <;>
    omega

/-- R168's arithmetic: a value survives its bytes. -/
theorem scalarValue_scalarBytes (t : ScalarType) (v : Int) (h : scalarInRange t v = true) :
    scalarValue t (scalarBytes t v) = v := by
  have hv := (scalarInRange_iff t v).1 h
  have hf : fromLe (scalarBytes t v) = bitPattern (scalarWidth t) v := by
    rw [scalarBytes, fromLe_leBytes, Nat.mod_eq_of_lt (bitPattern_lt _ _)]
  rw [scalarValue, hf]
  cases t <;>
    simp only [scalarSigned, scalarWidth, signExtend, bitPattern, scalarMin, scalarMax, reduceIte,
      Bool.false_eq_true] at hv ⊢ <;>
    omega

/-- Byte `i` of a value's pattern is byte `i` of the value (R53). -/
theorem scalarBytes_getElem? (t : ScalarType) (v : Int) (i : Nat) (h : i < scalarWidth t) :
    (scalarBytes t v)[i]? = some (BitVec.ofInt 8 (v / 256 ^ i)) := by
  rw [scalarBytes, leBytes_getElem? _ _ _ h]
  congr 1
  apply BitVec.eq_of_toNat_eq
  rw [BitVec.toNat_ofNat, BitVec.toNat_ofInt, bitPattern]
  have hw : scalarWidth t ≤ 8 := by cases t <;> decide
  generalize scalarWidth t = w at h hw
  interval_cases w <;> interval_cases i <;> norm_num <;> omega

/-! ### Byte sequences -/

@[simp] theorem known_length (bs : List Byte) : (known bs).length = bs.length := List.length_map _

theorem known_getElem? (bs : List Byte) (i : Nat) : (known bs)[i]? = bs[i]?.map some := List.getElem?_map

@[simp] theorem allKnown_known (bs : List Byte) : allKnown (known bs) = some bs := by
  induction bs with
  | nil => rfl
  | cons b bs ih =>
    rw [known] at ih
    simp [known, allKnown, ih]

theorem allKnown_eq_some {cs : Buffer} {bs : List Byte} : allKnown cs = some bs ↔ cs = known bs := by
  refine ⟨fun h => ?_, fun h => h ▸ allKnown_known bs⟩
  induction cs generalizing bs with
  | nil => cases h; rfl
  | cons x xs ih =>
    cases x with
    | none => cases h
    | some b =>
      simp only [allKnown, Option.map_eq_some_iff] at h
      obtain ⟨ys, hy, rfl⟩ := h
      rw [ih hy]
      rfl

theorem allKnown_eq_none {cs : Buffer} : allKnown cs = none ↔ none ∈ cs := by
  induction cs with
  | nil => simp [allKnown]
  | cons x xs ih => cases x <;> simp [allKnown, ih]

theorem known_append (a b : List Byte) : known (a ++ b) = known a ++ known b := List.map_append

@[simp] theorem resolveFrom_length (k i : Nat) (cs : Buffer) : (resolveFrom k i cs).length = cs.length := by
  induction cs generalizing i with
  | nil => rfl
  | cons x xs ih => simp [resolveFrom, ih]

@[simp] theorem resolveFrom_known (k i : Nat) (bs : List Byte) : resolveFrom k i (known bs) = bs := by
  induction bs generalizing i with
  | nil => rfl
  | cons b bs ih =>
    have := ih (i + 1)
    rw [known] at this
    simp [known, resolveFrom, this]

@[simp] theorem resolve_known (k : Nat) (bs : List Byte) : resolve k (known bs) = bs := resolveFrom_known k 0 bs

@[simp] theorem resolve_length (k : Nat) (cs : Buffer) : (resolve k cs).length = cs.length := resolveFrom_length k 0 cs

theorem resolveFrom_getElem? (k i j : Nat) (cs : Buffer) :
    (resolveFrom k i cs)[j]? = cs[j]?.map fun x => x.getD (Config.freeByte k (i + j)) := by
  induction cs generalizing i j with
  | nil => simp [resolveFrom]
  | cons x xs ih =>
    cases j with
    | zero => simp [resolveFrom]
    | succ j => simp [resolveFrom, ih, Nat.add_comm, Nat.add_left_comm]

/-- What is read in a buffer agrees with its specified bytes. -/
theorem resolve_getElem?_some {k j : Nat} {cs : Buffer} {x : Byte} (h : cs[j]? = some (some x)) :
    (resolve k cs)[j]? = some x := by
  rw [resolve, resolveFrom_getElem?, h]
  rfl

theorem resolveFrom_drop (k i n : Nat) (cs : Buffer) :
    (resolveFrom k i cs).drop n = resolveFrom k (i + n) (cs.drop n) := by
  apply List.ext_getElem?
  intro j
  simp [resolveFrom_getElem?, List.getElem?_drop, Nat.add_assoc]

theorem resolveFrom_take (k i n : Nat) (cs : Buffer) :
    (resolveFrom k i cs).take n = resolveFrom k i (cs.take n) := by
  apply List.ext_getElem?
  intro j
  simp only [List.getElem?_take, resolveFrom_getElem?]
  split <;> simp

theorem slice_length {α : Type} (B : List α) (lo hi : Nat) (h : hi ≤ B.length) :
    (slice B lo hi).length = hi - lo := by
  simp only [slice, List.length_take, List.length_drop]
  omega

theorem slice_getElem? {α : Type} (B : List α) (lo hi i : Nat) (h : i < hi - lo) :
    (slice B lo hi)[i]? = B[lo + i]? := by
  rw [slice, List.getElem?_take_of_lt h, List.getElem?_drop]

theorem memWrite_length (buf : Buffer) (off : Nat) (S : Buffer) (h : off + S.length ≤ buf.length) :
    (memWrite buf off S).length = buf.length := by
  simp only [memWrite, List.length_append, List.length_take, List.length_drop]
  omega

theorem memWrite_getElem?_inside (buf : Buffer) (off : Nat) (S : Buffer) (i : Nat)
    (h : off + S.length ≤ buf.length) (hi : i < S.length) : (memWrite buf off S)[off + i]? = S[i]? := by
  have hl : (buf.take off).length = off := by rw [List.length_take]; omega
  rw [memWrite, List.append_assoc, List.getElem?_append_right (by omega), hl, Nat.add_sub_cancel_left,
    List.getElem?_append_left hi]

theorem memWrite_getElem?_outside (buf : Buffer) (off : Nat) (S : Buffer) (j : Nat)
    (h : off + S.length ≤ buf.length) (hj : j < off ∨ off + S.length ≤ j) : (memWrite buf off S)[j]? = buf[j]? := by
  have hl : (buf.take off).length = off := by rw [List.length_take]; omega
  rw [memWrite, List.append_assoc]
  rcases hj with hj | hj
  · rw [List.getElem?_append_left (by omega), List.getElem?_take_of_lt hj]
  · rw [List.getElem?_append_right (by omega), hl, List.getElem?_append_right (by omega), List.getElem?_drop]
    congr 1
    omega

theorem slice_memWrite (buf : Buffer) (off : Nat) (S : Buffer) (h : off + S.length ≤ buf.length) :
    slice (memWrite buf off S) off (off + S.length) = S := by
  have hl : (buf.take off).length = off := by rw [List.length_take]; omega
  simp [slice, memWrite, List.append_assoc, hl]

/-! ### Bit fields -/

theorem packAddr_toNat (task : TaskId) (node : NodeId) :
    (packAddr task node).toNat = node.toNat * 2 ^ 5 + task.toNat := by
  have h1 := task.isLt
  have h2 := node.isLt
  rw [packAddr, BitVec.toNat_or, BitVec.toNat_shiftLeft, BitVec.toNat_setWidth, BitVec.toNat_setWidth,
    Nat.mod_eq_of_lt (show node.toNat < 2 ^ 11 by omega), Nat.mod_eq_of_lt (show task.toNat < 2 ^ 11 by omega),
    Nat.mod_eq_of_lt (show node.toNat <<< 5 < 2 ^ 11 by rw [Nat.shiftLeft_eq]; omega),
    ← Nat.shiftLeft_add_eq_or_of_lt h1, Nat.shiftLeft_eq]

theorem addrTask_toNat (a : Addr11) : (addrTask a).toNat = a.toNat % 2 ^ 5 := by
  simp [addrTask, BitVec.extractLsb'_toNat]

theorem addrNode_toNat (a : Addr11) : (addrNode a).toNat = a.toNat / 2 ^ 5 := by
  have := a.isLt
  rw [addrNode, BitVec.extractLsb'_toNat, Nat.shiftRight_eq_div_pow]
  omega

theorem packHeader_toNat (src dst : Addr11) (id : MessageId) :
    (packHeader src dst id).toNat = id.toNat * 2 ^ 22 + dst.toNat * 2 ^ 11 + src.toNat := by
  have h1 := src.isLt
  have h2 := dst.isLt
  have h3 := id.isLt
  have hd : dst.toNat <<< 11 < 2 ^ 22 := by rw [Nat.shiftLeft_eq]; omega
  have hs : src.toNat < 2 ^ 11 := h1
  rw [packHeader, BitVec.toNat_or, BitVec.toNat_or, BitVec.toNat_shiftLeft, BitVec.toNat_shiftLeft,
    BitVec.toNat_setWidth, BitVec.toNat_setWidth, BitVec.toNat_setWidth,
    Nat.mod_eq_of_lt (show src.toNat < 2 ^ 32 by omega), Nat.mod_eq_of_lt (show dst.toNat < 2 ^ 32 by omega),
    Nat.mod_eq_of_lt (show id.toNat < 2 ^ 32 by omega),
    Nat.mod_eq_of_lt (show dst.toNat <<< 11 < 2 ^ 32 by omega),
    Nat.mod_eq_of_lt (show id.toNat <<< 22 < 2 ^ 32 by rw [Nat.shiftLeft_eq]; omega),
    ← Nat.shiftLeft_add_eq_or_of_lt hd]
  have e : id.toNat <<< 22 + dst.toNat <<< 11 = (id.toNat * 2 ^ 11 + dst.toNat) <<< 11 := by
    simp only [Nat.shiftLeft_eq]; ring
  rw [e, ← Nat.shiftLeft_add_eq_or_of_lt hs, Nat.shiftLeft_eq]
  ring

theorem headerSrc_toNat (h : Hdr32) : (headerSrc h).toNat = h.toNat % 2 ^ 11 := by
  simp [headerSrc, BitVec.extractLsb'_toNat]

theorem headerDst_toNat (h : Hdr32) : (headerDst h).toNat = h.toNat / 2 ^ 11 % 2 ^ 11 := by
  rw [headerDst, BitVec.extractLsb'_toNat, Nat.shiftRight_eq_div_pow]

theorem headerMsgId_toNat (h : Hdr32) : (headerMsgId h).toNat = h.toNat / 2 ^ 22 := by
  have := h.isLt
  rw [headerMsgId, BitVec.extractLsb'_toNat, Nat.shiftRight_eq_div_pow]
  omega

/-- The fields of an Address are those it was packed from. -/
@[simp] theorem unpackAddress_packAddress (a : Address) : unpackAddress (packAddress a) = a := by
  have h1 := a.task.isLt
  have h2 := a.node.isLt
  obtain ⟨t, n⟩ := a
  simp only [unpackAddress, packAddress, Address.mk.injEq]
  constructor <;> apply BitVec.eq_of_toNat_eq
  · rw [addrTask_toNat, packAddr_toNat]; omega
  · rw [addrNode_toNat, packAddr_toNat]; omega

/-- The fields of a header are those it was packed from. -/
theorem header_packHeader (src dst : Addr11) (id : MessageId) :
    headerSrc (packHeader src dst id) = src ∧ headerDst (packHeader src dst id) = dst ∧
      headerMsgId (packHeader src dst id) = id := by
  have h1 := src.isLt
  have h2 := dst.isLt
  have h3 := id.isLt
  refine ⟨?_, ?_, ?_⟩ <;> apply BitVec.eq_of_toNat_eq
  · rw [headerSrc_toNat, packHeader_toNat]; omega
  · rw [headerDst_toNat, packHeader_toNat]; omega
  · rw [headerMsgId_toNat, packHeader_toNat]; omega

end Sys2Proof.Machine
end

