-- ==== Sys2Proof/Laws/Ops.lean ====
section
/-! SUPPORT. What the shared operations and the meanings can do, said once. -/

namespace Sys2Proof.Machine

/-! ### Scalar accesses -/

theorem writeScalar_ok (t : ScalarType) (buf : Buffer) (off : Nat) (v : Int) (hv : scalarInRange t v = true)
    (h : off + scalarWidth t ≤ buf.length) :
    writeScalar t buf off v =
      .ok (.written (memWrite buf off (known (scalarBytes t v))) (off + scalarWidth t)) := by
  simp [writeScalar, hv, h]

theorem writeScalar_bufferRange (t : ScalarType) (buf : Buffer) (off : Nat) (v : Int)
    (hv : scalarInRange t v = true) (h : buf.length < off + scalarWidth t) :
    writeScalar t buf off v = .error .bufferRange := by
  simp [writeScalar, hv, Nat.not_le.2 h, raise]

theorem writeScalar_refused (t : ScalarType) (buf : Buffer) (off : Nat) (v : Int)
    (hv : scalarInRange t v = false) : writeScalar t buf off v = .error .refused := by
  simp [writeScalar, hv, raise]

theorem readScalar_ok (t : ScalarType) (buf : Buffer) (off k : Nat) (h : off + scalarWidth t ≤ buf.length) :
    readScalar t buf off k =
      .ok (.value (scalarValue t (resolveFrom k off (slice buf off (off + scalarWidth t))))
        (off + scalarWidth t)) := by
  simp [readScalar, h]

theorem readScalar_bufferRange (t : ScalarType) (buf : Buffer) (off k : Nat)
    (h : buf.length < off + scalarWidth t) : readScalar t buf off k = .error .bufferRange := by
  simp [readScalar, Nat.not_le.2 h, raise]

/-! ### Meanings -/

theorem exec_writeInstr (t : ScalarType) (buf : Buffer) (off : Nat) (v : Int) (s : State) :
    exec (writeInstr t buf off v) s = complete (writeScalar t buf off v) s := by
  cases t <;> rfl

theorem exec_readInstr (t : ScalarType) (buf : Buffer) (off : Nat) (s : State) :
    exec (readInstr t buf off) s = complete (readScalar t buf off s.free) s := by
  cases t <;> rfl

theorem wf_writeInstr (t : ScalarType) (buf : Buffer) (off : Nat) (v : Int) :
    (writeInstr t buf off v).wf = scalarInRange t v := by
  cases t <;> rfl

theorem exec_frameDec (bytes : Buffer) (s : State) :
    exec (.frameDec bytes) s =
      complete (.ok (.msg (scanMessage (scan (checksum s.params.crc) s.params.crcCoversLen (resolve s.free bytes) s.free))))
        (s.withScanner (scan (checksum s.params.crc) s.params.crcCoversLen (resolve s.free bytes) s.free)) := rfl

/-- Every operation completes with a response; only FRAME_DEC touches the scanner first. -/
theorem exec_cases (i : Instr) (s : State) :
    ∃ r, exec i s = complete r s ∨ ∃ bytes, i = .frameDec bytes ∧
      exec i s = complete r
        (s.withScanner (scan (checksum s.params.crc) s.params.crcCoversLen (resolve s.free bytes) s.free)) := by
  cases i <;> first
    | exact ⟨_, .inl rfl⟩
    | exact ⟨_, .inr ⟨_, rfl, rfl⟩⟩

theorem responseOf_of_complete {i : Instr} {s s' : State} {r : Response} (h : exec i s = complete r s') :
    responseOf i s = some r := by
  rw [responseOf, h]
  rfl

theorem responseOf_writeInstr (t : ScalarType) (buf : Buffer) (off : Nat) (v : Int) (s : State) :
    responseOf (writeInstr t buf off v) s = some (writeScalar t buf off v) :=
  responseOf_of_complete (exec_writeInstr t buf off v s)

theorem responseOf_readInstr (t : ScalarType) (buf : Buffer) (off : Nat) (s : State) :
    responseOf (readInstr t buf off) s = some (readScalar t buf off s.free) :=
  responseOf_of_complete (exec_readInstr t buf off s)

/-- What a step can do: wait, refuse a reserved OP, or serve a decoded operation. -/
theorem step_cases {s t : State} (h : step s = .next t) :
    (s.requests = [] ∧ t = s) ∨
    ∃ r rest, s.requests = r :: rest ∧
      ((∃ op, decode r = .error (.reservedOp op) ∧
        t = { s with requests := rest, lastResponse := some (.error .refused), free := s.free + 1 }) ∨
      ∃ i, decode r = .ok i ∧ exec i { s with requests := rest } = .next t) := by
  unfold step fetch at h
  cases hr : s.requests with
  | nil => rw [hr] at h; cases h; exact .inl ⟨rfl, rfl⟩
  | cons r rest =>
    rw [hr] at h
    refine .inr ⟨r, rest, rfl, ?_⟩
    cases hd : decode r with
    | ok i => exact .inr ⟨i, rfl, by simpa [hd] using h⟩
    | error e =>
      cases e with
      | reservedOp op =>
        refine .inl ⟨op, rfl, ?_⟩
        simp only [hd, rejectRequest, raise] at h
        exact complete_next h

/-! ### Messages with every field specified -/

@[simp] theorem payloadFor_fullMessage (k : Nat) (id : MessageId) (src dst : Address) (p : KnownPayload)
    (valid : Bool) : (payloadFor k (fullMessage id src dst p valid)).val = known p.val := rfl

theorem payloadFor_of_some {k : Nat} {m : Message} {p : Payload} (h : m.payload = some p) : payloadFor k m = p := by
  simp [payloadFor, h]

/-- A Message with a payload of its own is updated field by field; of any other the whole result is UNSPECIFIED. -/
theorem updateMessage_of_some {k : Nat} {m : Message} {f : Message → Message} (h : m.payload ≠ none) :
    updateMessage k m f = f m := by
  unfold updateMessage
  split
  · rfl
  · next hn => exact absurd hn h

theorem updateMessage_of_none {k : Nat} {m : Message} {f : Message → Message} (h : m.payload = none) :
    updateMessage k m f = unspecifiedMessage k := by
  simp [updateMessage, h]

theorem encodeFrame_of_some {crc : List Byte → BitVec 32} {cov : Bool} {m : Message} {p : Payload} {k : Nat}
    (h : m.payload = some p) : encodeFrame crc cov m k =
      if 246 < p.val.length then .error .refused else .ok (.frame (frameCells crc cov m p.val)) := by
  unfold encodeFrame
  rw [h]
  rfl

theorem encodeFrame_of_none {crc : List Byte → BitVec 32} {cov : Bool} {m : Message} {k : Nat}
    (h : m.payload = none) : encodeFrame crc cov m k =
      if 246 < (Config.freeLength k).val then .error .refused
      else .ok (.frame (List.replicate (Config.freeFrameLength k) none)) := by
  unfold encodeFrame
  rw [h]
  rfl

theorem payloadFor_length_le (k : Nat) (m : Message) : (payloadFor k m).val.length ≤ 247 :=
  (payloadFor k m).property

@[simp] theorem messageContent_fullMessage (id : MessageId) (src dst : Address) (p : KnownPayload) (valid : Bool) :
    messageContent (fullMessage id src dst p valid) = some (id, src, dst, p.val) := by
  simp [messageContent, fullMessage]

end Sys2Proof.Machine
end

