-- ==== Sys2Proof/Laws/Scan.lean ====
section
/-! SUPPORT. The scanner (44_frame_decoder): what holds of its registers in each state of a scan, that a step keeps
it, and the measure that every step makes smaller. -/

namespace Sys2Proof.Machine

section

variable (crc : List Byte → BitVec 32) (cov : Bool)

theorem frameAt_eq_true {B : List Byte} {i : Nat} :
    frameAt crc cov B i = true ↔ ∃ len : Byte, B[i]? = some stxByte ∧ B[i + 1]? = some len ∧
      i + len.toNat + 3 ≤ B.length ∧ minLen ≤ len.toNat ∧
      (crc (crcSpan cov B i len.toNat)).toNat = storedCrc B i len.toNat ∧
      B[i + len.toNat + 2]? = some etxByte := by
  unfold frameAt
  cases h1 : B[i]? with
  | none => simp
  | some b =>
    cases h2 : B[i + 1]? with
    | none => simp
    | some l => simp [and_assoc]

theorem frameAt_false_of_byte {B : List Byte} {i : Nat} (h : B[i]? ≠ some stxByte) :
    frameAt crc cov B i = false := by
  rw [← Bool.not_eq_true, frameAt_eq_true]
  rintro ⟨_, h1, _⟩
  exact h h1

theorem frameAt_false_of_ge {B : List Byte} {i : Nat} (h : B.length ≤ i) : frameAt crc cov B i = false :=
  frameAt_false_of_byte crc cov (by simp [List.getElem?_eq_none h])

/-- What the scanner registers say of the input at each state of a scan (R31 to R35, R203 to R210). -/
def ScanInv (sc : Scanner) : Prop :=
  match sc.state with
  | .searchStx => sc.pos ≤ sc.buf.length ∧ ∀ i, i < sc.pos → frameAt crc cov sc.buf i = false
  | .readLen => sc.pos = sc.stx ∧ sc.buf[sc.stx]? = some stxByte ∧
      ∀ i, i < sc.stx → frameAt crc cov sc.buf i = false
  | .checkBodyBounds => sc.pos = sc.stx ∧ sc.buf[sc.stx]? = some stxByte ∧
      sc.buf[sc.stx + 1]? = some sc.len ∧ sc.stx + sc.len.toNat + 3 ≤ sc.buf.length ∧
      ∀ i, i < sc.stx → frameAt crc cov sc.buf i = false
  | .verifyCrc => sc.pos = sc.stx ∧ sc.buf[sc.stx]? = some stxByte ∧
      sc.buf[sc.stx + 1]? = some sc.len ∧ sc.stx + sc.len.toNat + 3 ≤ sc.buf.length ∧ minLen ≤ sc.len.toNat ∧
      ∀ i, i < sc.stx → frameAt crc cov sc.buf i = false
  | .verifyEtx => sc.pos = sc.stx ∧ sc.buf[sc.stx]? = some stxByte ∧
      sc.buf[sc.stx + 1]? = some sc.len ∧ sc.stx + sc.len.toNat + 3 ≤ sc.buf.length ∧ minLen ≤ sc.len.toNat ∧
      (crc (crcSpan cov sc.buf sc.stx sc.len.toNat)).toNat = storedCrc sc.buf sc.stx sc.len.toNat ∧
      ∀ i, i < sc.stx → frameAt crc cov sc.buf i = false
  | .success => sc.pos = sc.stx ∧ sc.buf[sc.stx + 1]? = some sc.len ∧
      frameAt crc cov sc.buf sc.stx = true ∧ ∀ i, i < sc.stx → frameAt crc cov sc.buf i = false
  | .failure => sc.pos = sc.buf.length ∧ ∀ i, frameAt crc cov sc.buf i = false

/-- How many steps a scan can still take (R214). -/
def scanMeasure (sc : Scanner) : Nat :=
  match sc.state with
  | .searchStx => 6 * (sc.buf.length - sc.pos) + 1
  | .readLen => 6 * (sc.buf.length - sc.stx)
  | .checkBodyBounds => 6 * (sc.buf.length - sc.stx) - 1
  | .verifyCrc => 6 * (sc.buf.length - sc.stx) - 2
  | .verifyEtx => 6 * (sc.buf.length - sc.stx) - 3
  | .success => 0
  | .failure => 0

theorem scanInv_start (B : List Byte) (k : Nat) : ScanInv crc cov (scanStart B k) := by
  simp [ScanInv, scanStart]

/-- The candidate at `stx` is not a frame, and no earlier index is: the search may go on behind it. -/
theorem scanInv_candidateFails {sc : Scanner} (hs : sc.stx < sc.buf.length)
    (hprev : ∀ i, i < sc.stx → frameAt crc cov sc.buf i = false)
    (hf : frameAt crc cov sc.buf sc.stx = false) : ScanInv crc cov (candidateFails sc) := by
  refine ⟨hs, fun i hi => ?_⟩
  rcases Nat.lt_succ_iff_lt_or_eq.1 hi with h | rfl
  · exact hprev i h
  · exact hf

theorem lt_length_of_getElem? {α : Type} {B : List α} {i : Nat} {b : α} (h : B[i]? = some b) : i < B.length :=
  (List.getElem?_eq_some_iff.1 h).1

/-- Every step keeps `ScanInv`, leaves SC.BUF alone, never moves SC.POS back, and, unless the scan is over, makes the
measure smaller. -/
theorem scanStep_spec {sc : Scanner} (h : ScanInv crc cov sc) :
    ScanInv crc cov (scanStep crc cov sc) ∧ (scanStep crc cov sc).buf = sc.buf ∧
      sc.pos ≤ (scanStep crc cov sc).pos ∧
      (sc.state = .success ∨ sc.state = .failure ∨ scanMeasure (scanStep crc cov sc) < scanMeasure sc) := by
  obtain ⟨st, pos, stx, len, buf⟩ := sc
  have notFrame : ∀ (l : Byte), buf[stx + 1]? = some l →
      (buf.length < stx + l.toNat + 3 ∨ l.toNat < minLen ∨
        (crc (crcSpan cov buf stx l.toNat)).toNat ≠ storedCrc buf stx l.toNat ∨
        buf[stx + l.toNat + 2]? ≠ some etxByte) → frameAt crc cov buf stx = false := by
    intro l hl hbad
    rw [← Bool.not_eq_true, frameAt_eq_true]
    rintro ⟨l', -, h2, h3, h4, h5, h6⟩
    obtain rfl : l = l' := Option.some.inj (hl.symm.trans h2)
    rcases hbad with hb | hb | hb | hb
    · omega
    · omega
    · exact hb h5
    · exact hb h6
  cases st with
  | searchStx =>
    obtain ⟨hp, hn⟩ := h
    simp only at hp hn
    cases hb : buf[pos]? with
    | none =>
      have hge : buf.length ≤ pos := by simpa using hb
      refine ⟨?_, by simp [scanStep, stepSearchStx, hb], by simp [scanStep, stepSearchStx, hb], .inr (.inr ?_)⟩
      · simp only [scanStep, stepSearchStx, hb, ScanInv]
        refine ⟨by omega, fun i => ?_⟩
        by_cases hi : i < pos
        · exact hn i hi
        · exact frameAt_false_of_ge crc cov (by omega)
      · simp [scanStep, stepSearchStx, hb, scanMeasure]
    | some b =>
      have hlt := lt_length_of_getElem? hb
      by_cases hx : b = stxByte
      · subst hx
        refine ⟨?_, by simp [scanStep, stepSearchStx, hb], by simp [scanStep, stepSearchStx, hb], .inr (.inr ?_)⟩
        · simp only [scanStep, stepSearchStx, hb, ScanInv, if_true]
          exact ⟨trivial, trivial, hn⟩
        · simp [scanStep, stepSearchStx, hb, scanMeasure]
      · refine ⟨?_, by simp [scanStep, stepSearchStx, hb, hx], by simp [scanStep, stepSearchStx, hb, hx],
          .inr (.inr ?_)⟩
        · simp only [scanStep, stepSearchStx, hb, if_neg hx, ScanInv]
          refine ⟨hlt, fun i hi => ?_⟩
          rcases Nat.lt_succ_iff_lt_or_eq.1 hi with hi | rfl
          · exact hn i hi
          · exact frameAt_false_of_byte crc cov (by rw [hb]; simpa using hx)
        · simp only [scanStep, stepSearchStx, hb, if_neg hx, scanMeasure]
          omega
  | readLen =>
    obtain ⟨hp, hs, hn⟩ := h
    simp only at hp hs hn
    have hlt := lt_length_of_getElem? hs
    cases hb : buf[stx + 1]? with
    | none =>
      refine ⟨?_, by simp [scanStep, stepReadLen, hb, candidateFails],
        by simp [scanStep, stepReadLen, hb, candidateFails]; omega, .inr (.inr ?_)⟩
      · simp only [scanStep, stepReadLen, hb]
        refine scanInv_candidateFails crc cov hlt hn ?_
        rw [← Bool.not_eq_true, frameAt_eq_true]
        rintro ⟨l, -, h2, -⟩
        simp only at h2
        rw [hb] at h2
        cases h2
      · simp only [scanStep, stepReadLen, hb, scanMeasure, candidateFails]
        omega
    | some b =>
      by_cases hl : stx + b.toNat + 3 > buf.length
      · refine ⟨?_, by simp [scanStep, stepReadLen, hb, hl, candidateFails],
          by simp [scanStep, stepReadLen, hb, hl, candidateFails]; omega, .inr (.inr ?_)⟩
        · simp only [scanStep, stepReadLen, hb, if_pos hl]
          exact scanInv_candidateFails crc cov hlt hn (notFrame b hb (.inl hl))
        · simp only [scanStep, stepReadLen, hb, if_pos hl, scanMeasure, candidateFails]
          omega
      · refine ⟨?_, by simp [scanStep, stepReadLen, hb, hl], by simp [scanStep, stepReadLen, hb, hl],
          .inr (.inr ?_)⟩
        · simp only [scanStep, stepReadLen, hb, if_neg hl, ScanInv]
          exact ⟨hp, hs, trivial, by omega, hn⟩
        · simp only [scanStep, stepReadLen, hb, if_neg hl, scanMeasure]
          omega
  | checkBodyBounds =>
    obtain ⟨hp, hs, hb, hl, hn⟩ := h
    simp only at hp hs hb hl hn
    have hlt := lt_length_of_getElem? hs
    by_cases hm : len.toNat < minLen
    · refine ⟨?_, by simp [scanStep, stepCheckBodyBounds, hm, candidateFails],
        by simp [scanStep, stepCheckBodyBounds, hm, candidateFails]; omega, .inr (.inr ?_)⟩
      · simp only [scanStep, stepCheckBodyBounds, if_pos hm]
        exact scanInv_candidateFails crc cov hlt hn (notFrame len hb (.inr (.inl hm)))
      · simp only [scanStep, stepCheckBodyBounds, if_pos hm, scanMeasure, candidateFails]
        omega
    · refine ⟨?_, by simp [scanStep, stepCheckBodyBounds, hm], by simp [scanStep, stepCheckBodyBounds, hm],
        .inr (.inr ?_)⟩
      · simp only [scanStep, stepCheckBodyBounds, if_neg hm, ScanInv]
        exact ⟨hp, hs, hb, hl, by omega, hn⟩
      · simp only [scanStep, stepCheckBodyBounds, if_neg hm, scanMeasure]
        omega
  | verifyCrc =>
    obtain ⟨hp, hs, hb, hl, hm, hn⟩ := h
    simp only at hp hs hb hl hm hn
    have hlt := lt_length_of_getElem? hs
    by_cases hc : (crc (crcSpan cov buf stx len.toNat)).toNat ≠ storedCrc buf stx len.toNat
    · refine ⟨?_, by simp [scanStep, stepVerifyCrc, hc, candidateFails],
        by simp [scanStep, stepVerifyCrc, hc, candidateFails]; omega, .inr (.inr ?_)⟩
      · simp only [scanStep, stepVerifyCrc, if_pos hc]
        exact scanInv_candidateFails crc cov hlt hn (notFrame len hb (.inr (.inr (.inl hc))))
      · simp only [scanStep, stepVerifyCrc, if_pos hc, scanMeasure, candidateFails]
        omega
    · refine ⟨?_, by simp [scanStep, stepVerifyCrc, not_not.1 hc], by simp [scanStep, stepVerifyCrc, not_not.1 hc],
        .inr (.inr ?_)⟩
      · simp only [scanStep, stepVerifyCrc, if_neg hc, ScanInv]
        exact ⟨hp, hs, hb, hl, hm, not_not.1 hc, hn⟩
      · simp only [scanStep, stepVerifyCrc, if_neg hc, scanMeasure]
        omega
  | verifyEtx =>
    obtain ⟨hp, hs, hb, hl, hm, hc, hn⟩ := h
    simp only at hp hs hb hl hm hc hn
    have hlt := lt_length_of_getElem? hs
    by_cases he : buf[stx + len.toNat + 2]? ≠ some etxByte
    · refine ⟨?_, by simp [scanStep, stepVerifyEtx, he, candidateFails],
        by simp [scanStep, stepVerifyEtx, he, candidateFails]; omega, .inr (.inr ?_)⟩
      · simp only [scanStep, stepVerifyEtx, if_pos he]
        exact scanInv_candidateFails crc cov hlt hn (notFrame len hb (.inr (.inr (.inr he))))
      · simp only [scanStep, stepVerifyEtx, if_pos he, scanMeasure, candidateFails]
        omega
    · refine ⟨?_, by simp [scanStep, stepVerifyEtx, not_not.1 he], by simp [scanStep, stepVerifyEtx, not_not.1 he],
        .inr (.inr ?_)⟩
      · simp only [scanStep, stepVerifyEtx, if_neg he, ScanInv]
        exact ⟨hp, hb, (frameAt_eq_true crc cov).2 ⟨len, hs, hb, hl, hm, hc, not_not.1 he⟩, hn⟩
      · simp only [scanStep, stepVerifyEtx, if_neg he, scanMeasure]
        omega
  | success => exact ⟨h, rfl, le_rfl, .inl rfl⟩
  | failure => exact ⟨h, rfl, le_rfl, .inr (.inl rfl)⟩

theorem scanSteps_succ (n : Nat) (sc : Scanner) :
    scanSteps crc cov (n + 1) sc = scanStep crc cov (scanSteps crc cov n sc) := by
  induction n generalizing sc with
  | zero => rfl
  | succ n ih => rw [scanSteps, ih, scanSteps]

/-- Along a scan `ScanInv` holds and SC.BUF is the input. -/
theorem scanSteps_inv (n : Nat) {sc : Scanner} (h : ScanInv crc cov sc) :
    ScanInv crc cov (scanSteps crc cov n sc) ∧ (scanSteps crc cov n sc).buf = sc.buf := by
  induction n with
  | zero => exact ⟨h, rfl⟩
  | succ n ih =>
    rw [scanSteps_succ]
    obtain ⟨h1, h2, -⟩ := scanStep_spec crc cov ih.1
    exact ⟨h1, h2.trans ih.2⟩

end

end Sys2Proof.Machine
end

