-- ==== Sys2Proof/Laws/Frame.lean ====
section
/-! SUPPORT. The frame of a Message with every field specified, as bytes (30_encoding R86), and what the decoder's
slices find in it. -/

namespace Sys2Proof.Machine

/-- The header word of a Message with every field specified (R144). -/
def headerWord (id : MessageId) (src dst : Address) : Hdr32 := packHeader (packAddress src) (packAddress dst) id

/-- The four header bytes and the payload: the source's `body` (R190). -/
def bodyBytes (id : MessageId) (src dst : Address) (p : List Byte) : List Byte :=
  leBytes 4 (headerWord id src dst).toNat ++ p

/-- The bytes the checksum covers (R88). -/
def spanBytes (cov : Bool) (id : MessageId) (src dst : Address) (p : List Byte) : List Byte :=
  if cov then BitVec.ofNat 8 (p.length + 8) :: bodyBytes id src dst p else bodyBytes id src dst p

/-- The frame (R86). -/
def frameBytes (crc : List Byte → BitVec 32) (cov : Bool) (id : MessageId) (src dst : Address) (p : List Byte) :
    List Byte :=
  stxByte :: BitVec.ofNat 8 (p.length + 8) ::
    (bodyBytes id src dst p ++ leBytes 4 (crc (spanBytes cov id src dst p)).toNat ++ [etxByte])

section

variable (crc : List Byte → BitVec 32) (cov : Bool) (id : MessageId) (src dst : Address)

@[simp] theorem bodyBytes_length (p : List Byte) : (bodyBytes id src dst p).length = p.length + 4 := by
  simp [bodyBytes, leBytes_length, Nat.add_comm]

@[simp] theorem frameBytes_length (p : List Byte) :
    (frameBytes crc cov id src dst p).length = p.length + 11 := by
  simp [frameBytes, leBytes_length]

theorem headerWord_toNat : (headerWord id src dst).toNat = headerNumber id src dst := by
  simp [headerWord, headerNumber, packHeader_toNat, packAddress, packAddr_toNat]

theorem headerCells_fullMessage (p : KnownPayload) (valid : Bool) :
    headerCells (fullMessage id src dst p valid) = known (leBytes 4 (headerWord id src dst).toNat) := by
  simp [headerCells, headerKnown, messageHeader, fullMessage, hdrLen, leBytes, cellIf, known, headerWord]

/-- FRAME_ENC's cells for a Message with every field specified are its frame's bytes. -/
theorem frameCells_fullMessage (p : KnownPayload) (valid : Bool) :
    frameCells crc cov (fullMessage id src dst p valid) (known p.val) =
      known (frameBytes crc cov id src dst p.val) := by
  have hb : headerCells (fullMessage id src dst p valid) ++ known p.val = known (bodyBytes id src dst p.val) := by
    rw [headerCells_fullMessage, bodyBytes, known_append]
  have hs : (if cov = true then some (BitVec.ofNat 8 (p.val.length + 8)) :: known (bodyBytes id src dst p.val)
      else known (bodyBytes id src dst p.val)) = known (spanBytes cov id src dst p.val) := by
    cases cov <;> rfl
  simp only [frameCells, hb, known_length, lenOverhead, hs, crcCells, allKnown_known, crcLen, frameBytes]
  simp [known]

theorem encodeFrame_fullMessage (p : KnownPayload) (valid : Bool) (k : Nat) (h : p.val.length ≤ 246) :
    encodeFrame crc cov (fullMessage id src dst p valid) k =
      .ok (.frame (known (frameBytes crc cov id src dst p.val))) := by
  rw [encodeFrame_of_some (p := ⟨known p.val, by rw [known_length]; exact p.property⟩) rfl,
    if_neg (by simpa using h), frameCells_fullMessage]

theorem spanBytes_length (p : List Byte) :
    (spanBytes cov id src dst p).length = if cov then p.length + 5 else p.length + 4 := by
  cases cov <;> simp [spanBytes]

/-- The length byte of a frame, as a number. -/
theorem lenByte_toNat {p : List Byte} (h : p.length ≤ 246) :
    (BitVec.ofNat 8 (p.length + 8)).toNat = p.length + 8 := by
  rw [BitVec.toNat_ofNat]
  omega

/-- The bytes of a frame from index 2 on. -/
theorem frameBytes_drop_two (p : List Byte) :
    (frameBytes crc cov id src dst p).drop 2 =
      bodyBytes id src dst p ++ (leBytes 4 (crc (spanBytes cov id src dst p)).toNat ++ [etxByte]) := by
  simp [frameBytes, List.append_assoc]

/-- A slice behind a run of bytes. -/
theorem slice_append_right {α : Type} (G F : List α) (lo hi : Nat) :
    slice (G ++ F) (G.length + lo) (G.length + hi) = slice F lo hi := by
  rw [slice, slice, ← List.drop_drop, List.drop_left]
  congr 1
  omega

/-- A slice before a run of bytes. -/
theorem slice_append_left {α : Type} (F X : List α) (lo hi : Nat) (h : hi ≤ F.length) :
    slice (F ++ X) lo hi = slice F lo hi := by
  by_cases hlo : lo ≤ hi
  · rw [slice, slice, List.drop_append_of_le_length (by omega), List.take_append_of_le_length]
    rw [List.length_drop]
    omega
  · rw [slice, slice, Nat.sub_eq_zero_of_le (by omega), List.take_zero, List.take_zero]

theorem slice_frameBytes_crc (p : List Byte) :
    slice (frameBytes crc cov id src dst p) (p.length + 6) (p.length + 10) =
      leBytes 4 (crc (spanBytes cov id src dst p)).toNat := by
  have h : frameBytes crc cov id src dst p =
      (stxByte :: BitVec.ofNat 8 (p.length + 8) :: bodyBytes id src dst p) ++
        (leBytes 4 (crc (spanBytes cov id src dst p)).toNat ++ [etxByte]) := by
    simp [frameBytes, List.append_assoc]
  have hl : (stxByte :: BitVec.ofNat 8 (p.length + 8) :: bodyBytes id src dst p).length = p.length + 6 := by simp
  have := slice_append_right (stxByte :: BitVec.ofNat 8 (p.length + 8) :: bodyBytes id src dst p)
    (leBytes 4 (crc (spanBytes cov id src dst p)).toNat ++ [etxByte]) 0 4
  rw [hl] at this
  rw [h, show p.length + 6 = p.length + 6 + 0 from rfl, show p.length + 10 = p.length + 6 + 4 from rfl, this,
    slice_append_left _ _ _ _ (by rw [leBytes_length]), slice, List.drop_zero, List.take_of_length_le]
  rw [leBytes_length]

theorem crcSpan_frameBytes (p : List Byte) :
    crcSpan cov (frameBytes crc cov id src dst p) 0 (p.length + 8) = spanBytes cov id src dst p := by
  have h2 := frameBytes_drop_two crc cov id src dst p
  have h1 : (frameBytes crc cov id src dst p).drop 1 = BitVec.ofNat 8 (p.length + 8) ::
      (bodyBytes id src dst p ++ (leBytes 4 (crc (spanBytes cov id src dst p)).toNat ++ [etxByte])) := by
    simp [frameBytes, List.append_assoc]
  cases cov
  · simp only [crcSpan, spanBytes, slice, Nat.zero_add, Bool.false_eq_true, if_false, h2]
    exact List.take_left' (by simp)
  · simp only [crcSpan, spanBytes, slice, Nat.zero_add, if_true, h1,
      show p.length + 8 - 2 - 1 = (p.length + 4) + 1 from rfl, List.take_succ_cons]
    rw [List.take_left' (by simp)]

/-- A frame is a well-formed frame wherever it stands (R191, R213). -/
theorem frameAt_frameBytes (G X p : List Byte) (h : p.length ≤ 246) :
    frameAt crc cov (G ++ (frameBytes crc cov id src dst p ++ X)) G.length = true := by
  have hl := frameBytes_length crc cov id src dst p
  have hn := lenByte_toNat h
  have hget : ∀ j, j < p.length + 11 → (G ++ (frameBytes crc cov id src dst p ++ X))[G.length + j]? =
      (frameBytes crc cov id src dst p)[j]? := by
    intro j hj
    rw [List.getElem?_append_right (by omega), Nat.add_sub_cancel_left, List.getElem?_append_left (by omega)]
  have hslice : ∀ lo hi, hi ≤ p.length + 11 → slice (G ++ (frameBytes crc cov id src dst p ++ X))
      (G.length + lo) (G.length + hi) = slice (frameBytes crc cov id src dst p) lo hi := by
    intro lo hi hhi
    rw [slice_append_right, slice_append_left _ _ _ _ (by omega)]
  rw [frameAt_eq_true]
  refine ⟨BitVec.ofNat 8 (p.length + 8), ?_, ?_, ?_, ?_, ?_, ?_⟩
  · rw [← Nat.add_zero G.length, hget 0 (by omega)]
    rfl
  · rw [hget 1 (by omega)]
    rfl
  · rw [hn]
    simp only [List.length_append, hl]
    omega
  · rw [hn, minLen]
    omega
  · rw [hn, storedCrc, show G.length + (p.length + 8) - 2 = G.length + (p.length + 6) by omega,
      show G.length + (p.length + 8) + 2 = G.length + (p.length + 10) by omega, hslice _ _ (by omega),
      slice_frameBytes_crc, fromLe_leBytes]
    have hspan : crcSpan cov (G ++ (frameBytes crc cov id src dst p ++ X)) G.length (p.length + 8) =
        crcSpan cov (frameBytes crc cov id src dst p) 0 (p.length + 8) := by
      have e : G.length + (p.length + 8) - 2 = G.length + (p.length + 6) := by omega
      have e' : p.length + 8 - 2 = p.length + 6 := by omega
      simp only [crcSpan, e, e', hslice _ _ (show p.length + 6 ≤ p.length + 11 by omega), Nat.zero_add]
    rw [hspan, crcSpan_frameBytes]
    exact (Nat.mod_eq_of_lt (crc _).isLt).symm
  · rw [hn, show G.length + (p.length + 8) + 2 = G.length + (p.length + 10) by omega, hget _ (by omega)]
    rw [frameBytes, show p.length + 10 = p.length + 8 + 1 + 1 from rfl, List.getElem?_cons_succ,
      List.getElem?_cons_succ, List.getElem?_append_right (by simp [leBytes_length])]
    simp [leBytes_length]

/-- What the decoder unpacks from a frame is the Message (R209, R215). -/
theorem messageAt_frameBytes (G X : List Byte) (p : KnownPayload) (h : p.val.length ≤ 246) :
    messageAt (G ++ (frameBytes crc cov id src dst p.val ++ X)) G.length (BitVec.ofNat 8 (p.val.length + 8)) =
      fullMessage id src dst p true := by
  have hl := frameBytes_length crc cov id src dst p.val
  have hn := lenByte_toNat h
  have hslice : ∀ lo hi, hi ≤ p.val.length + 11 → slice (G ++ (frameBytes crc cov id src dst p.val ++ X))
      (G.length + lo) (G.length + hi) = slice (frameBytes crc cov id src dst p.val) lo hi := by
    intro lo hi hhi
    rw [slice_append_right, slice_append_left _ _ _ _ (by omega)]
  have hd := frameBytes_drop_two crc cov id src dst p.val
  have hh : slice (frameBytes crc cov id src dst p.val) 2 6 = leBytes 4 (headerWord id src dst).toNat := by
    rw [slice, hd, bodyBytes, List.append_assoc]
    exact List.take_left' (leBytes_length _ _)
  have hp : slice (frameBytes crc cov id src dst p.val) 6 (p.val.length + 6) = p.val := by
    rw [slice, show (6 : Nat) = 2 + 4 from rfl, ← List.drop_drop, hd, bodyBytes, List.append_assoc,
      List.drop_left' (leBytes_length _ _)]
    exact List.take_left' (by omega)
  have hw : BitVec.ofNat 32 (fromLe (leBytes 4 (headerWord id src dst).toNat)) = headerWord id src dst := by
    apply BitVec.eq_of_toNat_eq
    rw [fromLe_leBytes, BitVec.toNat_ofNat]
    have := (headerWord id src dst).isLt
    omega
  obtain ⟨h1, h2, h3⟩ := header_packHeader (packAddress src) (packAddress dst) id
  have e : G.length + (p.val.length + 8) - 2 = G.length + (p.val.length + 6) := by omega
  simp only [messageAt, fullMessage, hn, e, hslice _ _ (show 6 ≤ p.val.length + 11 by omega),
    hslice _ _ (show p.val.length + 6 ≤ p.val.length + 11 by omega), hh, hp, hw, validDecoded]
  simp only [headerWord, h1, h2, h3, unpackAddress_packAddress]

end

end Sys2Proof.Machine
end

