-- ==== Sys2Proof/Laws/PerInstr.lean ====
section
/-! SUPPORT. Per operation: its OP alone selects it (30_encoding R100): a request with that OP, whatever stands on the
operand ports, decodes to the same operation, so every operation has a select code and none shares one. -/

namespace Sys2Proof.Laws.OpSelect

/-- A request with the OP of `i` decodes to an operation with the same OP, whatever its operands. -/
def Statement (i : Instr) : Prop :=
  ∀ p : Operands, ∃ j, decode { op := opSelect i, operands := p } = .ok j ∧ opSelect j = opSelect i

theorem addrPack (task : TaskId) (node : NodeId) : Statement (.addrPack task node) := fun p => by
  simp [decode, opSelect, opUnit, opFunction, decodeUnit, decodeAddress]

theorem addrUnpack (addr : Addr11) : Statement (.addrUnpack addr) := fun p => by
  simp [decode, opSelect, opUnit, opFunction, decodeUnit, decodeAddress]

theorem taskFromOffset (n : BitVec 5) : Statement (.taskFromOffset n) := fun p => by
  simp [decode, opSelect, opUnit, opFunction, decodeUnit, decodeAddress]

theorem hdrPack (src dst : Addr11) (msgId : MessageId) : Statement (.hdrPack src dst msgId) := fun p => by
  simp [decode, opSelect, opUnit, opFunction, decodeUnit, decodeHeader]

theorem hdrUnpack (hdr : Hdr32) : Statement (.hdrUnpack hdr) := fun p => by
  simp [decode, opSelect, opUnit, opFunction, decodeUnit, decodeHeader]

theorem wrU8 (buf : Buffer) (off : Nat) (val : Int) : Statement (.wrU8 buf off val) := fun p => by
  simp [decode, opSelect, opUnit, opFunction, decodeUnit, decodeScalar]

theorem wrI8 (buf : Buffer) (off : Nat) (val : Int) : Statement (.wrI8 buf off val) := fun p => by
  simp [decode, opSelect, opUnit, opFunction, decodeUnit, decodeScalar]

theorem wrU16 (buf : Buffer) (off : Nat) (val : Int) : Statement (.wrU16 buf off val) := fun p => by
  simp [decode, opSelect, opUnit, opFunction, decodeUnit, decodeScalar]

theorem wrI16 (buf : Buffer) (off : Nat) (val : Int) : Statement (.wrI16 buf off val) := fun p => by
  simp [decode, opSelect, opUnit, opFunction, decodeUnit, decodeScalar]

theorem wrU32 (buf : Buffer) (off : Nat) (val : Int) : Statement (.wrU32 buf off val) := fun p => by
  simp [decode, opSelect, opUnit, opFunction, decodeUnit, decodeScalar]

theorem wrI32 (buf : Buffer) (off : Nat) (val : Int) : Statement (.wrI32 buf off val) := fun p => by
  simp [decode, opSelect, opUnit, opFunction, decodeUnit, decodeScalar]

theorem wrU64 (buf : Buffer) (off : Nat) (val : Int) : Statement (.wrU64 buf off val) := fun p => by
  simp [decode, opSelect, opUnit, opFunction, decodeUnit, decodeScalar]

theorem wrI64 (buf : Buffer) (off : Nat) (val : Int) : Statement (.wrI64 buf off val) := fun p => by
  simp [decode, opSelect, opUnit, opFunction, decodeUnit, decodeScalar]

theorem rdU8 (buf : Buffer) (off : Nat) : Statement (.rdU8 buf off) := fun p => by
  simp [decode, opSelect, opUnit, opFunction, decodeUnit, decodeScalar]

theorem rdI8 (buf : Buffer) (off : Nat) : Statement (.rdI8 buf off) := fun p => by
  simp [decode, opSelect, opUnit, opFunction, decodeUnit, decodeScalar]

theorem rdU16 (buf : Buffer) (off : Nat) : Statement (.rdU16 buf off) := fun p => by
  simp [decode, opSelect, opUnit, opFunction, decodeUnit, decodeScalar]

theorem rdI16 (buf : Buffer) (off : Nat) : Statement (.rdI16 buf off) := fun p => by
  simp [decode, opSelect, opUnit, opFunction, decodeUnit, decodeScalar]

theorem rdU32 (buf : Buffer) (off : Nat) : Statement (.rdU32 buf off) := fun p => by
  simp [decode, opSelect, opUnit, opFunction, decodeUnit, decodeScalar]

theorem rdI32 (buf : Buffer) (off : Nat) : Statement (.rdI32 buf off) := fun p => by
  simp [decode, opSelect, opUnit, opFunction, decodeUnit, decodeScalar]

theorem rdU64 (buf : Buffer) (off : Nat) : Statement (.rdU64 buf off) := fun p => by
  simp [decode, opSelect, opUnit, opFunction, decodeUnit, decodeScalar]

theorem rdI64 (buf : Buffer) (off : Nat) : Statement (.rdI64 buf off) := fun p => by
  simp [decode, opSelect, opUnit, opFunction, decodeUnit, decodeScalar]

theorem msgEncode (msgId : MessageId) (fields : List (ScalarType × Int)) : Statement (.msgEncode msgId fields) := fun p => by
  simp [decode, opSelect, opUnit, opFunction, decodeUnit, decodeTyped]

theorem msgDecode (msg : Message) (types : List ScalarType) : Statement (.msgDecode msg types) := fun p => by
  simp [decode, opSelect, opUnit, opFunction, decodeUnit, decodeTyped]

theorem frameEnc (msg : Message) : Statement (.frameEnc msg) := fun p => by
  simp [decode, opSelect, opUnit, opFunction, decodeUnit, decodeFrameUnit]

theorem frameDec (bytes : Buffer) : Statement (.frameDec bytes) := fun p => by
  simp [decode, opSelect, opUnit, opFunction, decodeUnit, decodeFrameUnit]

theorem msgNew (msgId : MessageId) (length : Nat) : Statement (.msgNew msgId length) := fun p => by
  simp [decode, opSelect, opUnit, opFunction, decodeUnit, decodeEntity]

theorem msgSetSrc (msg : Message) (addr : Address) : Statement (.msgSetSrc msg addr) := fun p => by
  simp [decode, opSelect, opUnit, opFunction, decodeUnit, decodeEntity]

theorem msgSetDst (msg : Message) (addr : Address) : Statement (.msgSetDst msg addr) := fun p => by
  simp [decode, opSelect, opUnit, opFunction, decodeUnit, decodeEntity]

theorem msgGetPayload (msg : Message) : Statement (.msgGetPayload msg) := fun p => by
  simp [decode, opSelect, opUnit, opFunction, decodeUnit, decodeEntity]

theorem msgSetPayload (msg : Message) (buf : Buffer) : Statement (.msgSetPayload msg buf) := fun p => by
  simp [decode, opSelect, opUnit, opFunction, decodeUnit, decodeEntity]

theorem msgGetLength (msg : Message) : Statement (.msgGetLength msg) := fun p => by
  simp [decode, opSelect, opUnit, opFunction, decodeUnit, decodeEntity]

theorem msgEq (a b : Message) : Statement (.msgEq a b) := fun p => by
  simp [decode, opSelect, opUnit, opFunction, decodeUnit, decodeEntity]

end Sys2Proof.Laws.OpSelect
end

