-- ==== Sys2Proof/Laws/Wire.lean ====
section
/-! SUPPORT. The checksum's register (60_exceptions R263): one bit and one byte lose nothing of it. -/

namespace Sys2Proof.Machine

@[simp] theorem checksum_isoHdlc : checksum .isoHdlc = crc32IsoHdlc := rfl

/-- The bit shifted out can be read off the top of the result, so a bit step loses nothing. -/
theorem crcBit_injective : Function.Injective crcBit := by
  have top : ∀ x : BitVec 32, (crcBit x).getLsbD 31 = x.getLsbD 0 := by
    intro x
    unfold crcBit
    split
    · next h => simp [h]
    · next h => rw [Bool.not_eq_true] at h; rw [h]; simp
  intro a b h
  have hb : a.getLsbD 0 = b.getLsbD 0 := by rw [← top a, ← top b, h]
  have hs : a >>> 1 = b >>> 1 := by
    unfold crcBit at h
    rw [hb] at h
    split at h
    · exact (BitVec.xor_left_inj _).1 h
    · exact h
  apply BitVec.eq_of_getLsbD_eq
  intro i _
  cases i with
  | zero => exact hb
  | succ i => simpa [Nat.add_comm] using congrArg (fun x => BitVec.getLsbD x i) hs

theorem repeat_crcBit_injective (n : Nat) : Function.Injective (Nat.repeat crcBit n) := by
  induction n with
  | zero => exact fun _ _ h => h
  | succ n ih => exact fun _ _ h => ih (crcBit_injective h)

/-- One input byte loses nothing of the register. -/
theorem crcByte_left_injective (b : Byte) : Function.Injective fun r => crcByte r b :=
  fun _ _ h => (BitVec.xor_left_inj _).1 (repeat_crcBit_injective 8 h)

/-- The same register and another byte give another register. -/
theorem crcByte_right_injective (r : BitVec 32) : Function.Injective (crcByte r) := by
  intro a b h
  have h := (BitVec.xor_right_inj _).1 (repeat_crcBit_injective 8 h)
  simpa using congrArg (BitVec.setWidth 8) h

end Sys2Proof.Machine
end

