-- ==== Sys2Proof/Tests/Slice0.lean ====
section
/-! SUPPORT. The model's own tests: the well-formedness smoke, the select codes of 30_encoding R100 written out, the
worked examples of 95_test_vectors (the vector's name stands beside its test), and, for every statement with
hypotheses, a concrete state and operands that meet them. -/

namespace Sys2Proof.Tests

open Sys2Proof Sys2Proof.Machine

-- Kernel evaluations one after another: queued in parallel they exhaust the threads.
set_option Elab.async false

/-! ### A small state, and the Messages and frames of 95_test_vectors -/

def testParams : Params := { taskBroadcast := 31#5, taskOffsetBase := 1, crcCoversLen := false, crc := .isoHdlc }

def testState : State :=
  { params := testParams, scanner := Scanner.reset, lastResponse := none, requests := [], free := 0 }

def lenState : State := { testState with params := { testParams with crcCoversLen := true } }

def byteList (l : List Nat) : List Byte := l.map (BitVec.ofNat 8)

def knownPayload (l : List Nat) (h : (byteList l).length ≤ Config.payloadCap) : KnownPayload := ⟨byteList l, h⟩

def zeros16 : Buffer := List.replicate 16 (some 0#8)

def payloadS4 : List Nat := [1, 2, 3, 4, 5, 6, 7, 0xFE, 0xFF, 0xFD, 0xFF, 0xFF, 0xFF]

def bufS4 : Buffer := known (byteList payloadS4)

def messageS4 : Message :=
  { msgId := some 1#10, src := none, dst := none, payload := some ⟨bufS4, by decide⟩, valid := true }

def fieldsS4 : List (ScalarType × Int) := [(.u8, 1), (.u16, 0x0302), (.u32, 0x07060504), (.i16, -2), (.i32, -3)]

def payload1 : KnownPayload := knownPayload [0xAA] (by decide)

def message1 : Message := fullMessage 1#10 ⟨7#5, 1#6⟩ ⟨2#5, 10#6⟩ payload1 true

def frame1 : List Byte := byteList [0x1E, 0x09, 0x27, 0x10, 0x4A, 0x00, 0xAA, 0x76, 0x11, 0xD4, 0xAE, 0x1F]

def maxKnownPayload : KnownPayload := ⟨List.replicate 246 0#8, by rw [List.length_replicate]; decide⟩

/-! ### Well-formedness: a value one past its type's range is refused -/

theorem test_wf_wrU8 :
    (Instr.wrU8 [] 0 (-1)).wf = false ∧ (Instr.wrU8 [] 0 (0)).wf = true ∧
    (Instr.wrU8 [] 0 (255)).wf = true ∧ (Instr.wrU8 [] 0 256).wf = false := by decide +kernel

theorem test_wf_wrI8 :
    (Instr.wrI8 [] 0 (-129)).wf = false ∧ (Instr.wrI8 [] 0 (-128)).wf = true ∧
    (Instr.wrI8 [] 0 (127)).wf = true ∧ (Instr.wrI8 [] 0 128).wf = false := by decide +kernel

theorem test_wf_wrU16 :
    (Instr.wrU16 [] 0 (-1)).wf = false ∧ (Instr.wrU16 [] 0 (0)).wf = true ∧
    (Instr.wrU16 [] 0 (65535)).wf = true ∧ (Instr.wrU16 [] 0 65536).wf = false := by decide +kernel

theorem test_wf_wrI16 :
    (Instr.wrI16 [] 0 (-32769)).wf = false ∧ (Instr.wrI16 [] 0 (-32768)).wf = true ∧
    (Instr.wrI16 [] 0 (32767)).wf = true ∧ (Instr.wrI16 [] 0 32768).wf = false := by decide +kernel

theorem test_wf_wrU32 :
    (Instr.wrU32 [] 0 (-1)).wf = false ∧ (Instr.wrU32 [] 0 (0)).wf = true ∧
    (Instr.wrU32 [] 0 (4294967295)).wf = true ∧ (Instr.wrU32 [] 0 4294967296).wf = false := by decide +kernel

theorem test_wf_wrI32 :
    (Instr.wrI32 [] 0 (-2147483649)).wf = false ∧ (Instr.wrI32 [] 0 (-2147483648)).wf = true ∧
    (Instr.wrI32 [] 0 (2147483647)).wf = true ∧ (Instr.wrI32 [] 0 2147483648).wf = false := by decide +kernel

theorem test_wf_wrU64 :
    (Instr.wrU64 [] 0 (-1)).wf = false ∧ (Instr.wrU64 [] 0 (0)).wf = true ∧
    (Instr.wrU64 [] 0 (18446744073709551615)).wf = true ∧ (Instr.wrU64 [] 0 18446744073709551616).wf = false := by decide +kernel

theorem test_wf_wrI64 :
    (Instr.wrI64 [] 0 (-9223372036854775809)).wf = false ∧ (Instr.wrI64 [] 0 (-9223372036854775808)).wf = true ∧
    (Instr.wrI64 [] 0 (9223372036854775807)).wf = true ∧ (Instr.wrI64 [] 0 9223372036854775808).wf = false := by decide +kernel

theorem test_wf_msgEncode : (Instr.msgEncode 0#10 [(.u8, 1), (.i8, 128)]).wf = false := by decide +kernel

/-! ### Select codes (R100, R102) -/

theorem test_decode_addrPack : decodeTableWord 8 0x00 = some (.addrPack 0#5 0#6) := by decide +kernel

theorem test_decode_addrUnpack : decodeTableWord 8 0x01 = some (.addrUnpack 0#11) := by decide +kernel

theorem test_decode_taskFromOffset : decodeTableWord 8 0x02 = some (.taskFromOffset 0#5) := by decide +kernel

theorem test_decode_hdrPack : decodeTableWord 8 0x10 = some (.hdrPack 0#11 0#11 0#10) := by decide +kernel

theorem test_decode_hdrUnpack : decodeTableWord 8 0x11 = some (.hdrUnpack 0#32) := by decide +kernel

theorem test_decode_wrU8 : decodeTableWord 8 0x20 = some (.wrU8 [] 0 0) := by decide +kernel

theorem test_decode_wrI8 : decodeTableWord 8 0x21 = some (.wrI8 [] 0 0) := by decide +kernel

theorem test_decode_wrU16 : decodeTableWord 8 0x22 = some (.wrU16 [] 0 0) := by decide +kernel

theorem test_decode_wrI16 : decodeTableWord 8 0x23 = some (.wrI16 [] 0 0) := by decide +kernel

theorem test_decode_wrU32 : decodeTableWord 8 0x24 = some (.wrU32 [] 0 0) := by decide +kernel

theorem test_decode_wrI32 : decodeTableWord 8 0x25 = some (.wrI32 [] 0 0) := by decide +kernel

theorem test_decode_wrU64 : decodeTableWord 8 0x26 = some (.wrU64 [] 0 0) := by decide +kernel

theorem test_decode_wrI64 : decodeTableWord 8 0x27 = some (.wrI64 [] 0 0) := by decide +kernel

theorem test_decode_rdU8 : decodeTableWord 8 0x28 = some (.rdU8 [] 0) := by decide +kernel

theorem test_decode_rdI8 : decodeTableWord 8 0x29 = some (.rdI8 [] 0) := by decide +kernel

theorem test_decode_rdU16 : decodeTableWord 8 0x2A = some (.rdU16 [] 0) := by decide +kernel

theorem test_decode_rdI16 : decodeTableWord 8 0x2B = some (.rdI16 [] 0) := by decide +kernel

theorem test_decode_rdU32 : decodeTableWord 8 0x2C = some (.rdU32 [] 0) := by decide +kernel

theorem test_decode_rdI32 : decodeTableWord 8 0x2D = some (.rdI32 [] 0) := by decide +kernel

theorem test_decode_rdU64 : decodeTableWord 8 0x2E = some (.rdU64 [] 0) := by decide +kernel

theorem test_decode_rdI64 : decodeTableWord 8 0x2F = some (.rdI64 [] 0) := by decide +kernel

theorem test_decode_msgEncode : decodeTableWord 8 0x30 = some (.msgEncode 0#10 []) := by decide +kernel

theorem test_decode_msgDecode : decodeTableWord 8 0x31 = some (.msgDecode Message.zero []) := by decide +kernel

theorem test_decode_frameEnc : decodeTableWord 8 0x40 = some (.frameEnc Message.zero) := by decide +kernel

theorem test_decode_frameDec : decodeTableWord 8 0x41 = some (.frameDec []) := by decide +kernel

theorem test_decode_msgNew : decodeTableWord 8 0x50 = some (.msgNew 0#10 0) := by decide +kernel

theorem test_decode_msgSetSrc : decodeTableWord 8 0x51 = some (.msgSetSrc Message.zero ⟨0#5, 0#6⟩) := by decide +kernel

theorem test_decode_msgSetDst : decodeTableWord 8 0x52 = some (.msgSetDst Message.zero ⟨0#5, 0#6⟩) := by decide +kernel

theorem test_decode_msgGetPayload : decodeTableWord 8 0x53 = some (.msgGetPayload Message.zero) := by decide +kernel

theorem test_decode_msgSetPayload : decodeTableWord 8 0x54 = some (.msgSetPayload Message.zero []) := by decide +kernel

theorem test_decode_msgGetLength : decodeTableWord 8 0x55 = some (.msgGetLength Message.zero) := by decide +kernel

theorem test_decode_msgEq : decodeTableWord 8 0x56 = some (.msgEq Message.zero Message.zero) := by decide +kernel

/-- V-OP-1 to V-OP-6. -/
theorem test_decode_reserved : [0x03, 0x12, 0x32, 0x42, 0x57, 0x60, 0xFF].all
    (fun w => (decodeTableWord 8 w).isNone) = true := by decide +kernel

/-- The next state of an outcome, if it has one. -/
def nextState : Outcome → Option State
  | .next t => some t
  | .fault _ => none
  | .refused _ => none

theorem test_withFetchWord : nextState (step (State.withFetchWord testState 8 0x01)) =
    some { testState with lastResponse := some (.ok (.taskNode 0#5 0#6)), free := 1 } := by decide +kernel

/-- V-OP-1, as a step. -/
theorem test_step_reserved : nextState (step (State.withFetchWord testState 8 0x03)) =
    some { testState with lastResponse := some (.error .refused), free := 1 } := by decide +kernel

/-! ### Worked examples -/

/-- V-AD-3. -/
theorem test_addrPack : responseOf (.addrPack 5#5 3#6) testState = some (.ok (.addr 0x065#11)) := by
  decide +kernel

/-- V-AD-9. -/
theorem test_addrPack_node : responseOf (.addrPack 0#5 1#6) testState = some (.ok (.addr 0x020#11)) := by
  decide +kernel

/-- V-AD-11. -/
theorem test_addrUnpack : responseOf (.addrUnpack 0x7E1#11) testState = some (.ok (.taskNode 1#5 63#6)) := by
  decide +kernel

/-- V-AD-22. -/
theorem test_taskFromOffset : responseOf (.taskFromOffset 29#5) testState = some (.ok (.task 30#5)) := by
  decide +kernel

/-- V-AD-23. -/
theorem test_taskFromOffset_broadcast : responseOf (.taskFromOffset 30#5) testState = some (.error .refused) := by
  decide +kernel

/-- V-HD-1. -/
theorem test_hdrPack : responseOf (.hdrPack 0x065#11 0x7E1#11 0x155#10) testState = some (.ok (.hdr 0x557F0865#32)) := by
  decide +kernel

/-- V-HD-10. -/
theorem test_hdrUnpack : responseOf (.hdrUnpack 0x004A1027#32) testState = some (.ok (.header 0x027#11 0x142#11 1#10)) := by
  decide +kernel

/-- V-SC-2. -/
theorem test_wrU8 : responseOf (.wrU8 zeros16 15 (255)) testState = some (.ok (.written (known (byteList [0, 0, 0, 0, 0, 0, 0, 0, 0, 0, 0, 0, 0, 0, 0, 0xFF])) 16)) := by
  decide +kernel

/-- V-SC-3. -/
theorem test_wrU8_range : responseOf (.wrU8 zeros16 16 0) testState = some (.error .bufferRange) := by
  decide +kernel

/-- V-SC-4. -/
theorem test_wrI8 : responseOf (.wrI8 zeros16 3 (-2)) testState = some (.ok (.written (known (byteList [0, 0, 0, 0xFE, 0, 0, 0, 0, 0, 0, 0, 0, 0, 0, 0, 0])) 4)) := by
  decide +kernel

/-- V-SC-6. -/
theorem test_wrU16 : responseOf (.wrU16 zeros16 1 (0x0302)) testState = some (.ok (.written (known (byteList [0, 2, 3, 0, 0, 0, 0, 0, 0, 0, 0, 0, 0, 0, 0, 0])) 3)) := by
  decide +kernel

/-- V-SC-7. -/
theorem test_wrU16_range : responseOf (.wrU16 zeros16 15 0xABCD) testState = some (.error .bufferRange) := by
  decide +kernel

/-- V-SC-9. -/
theorem test_wrI16 : responseOf (.wrI16 zeros16 0 (-32768)) testState = some (.ok (.written (known (byteList [0, 0x80, 0, 0, 0, 0, 0, 0, 0, 0, 0, 0, 0, 0, 0, 0])) 2)) := by
  decide +kernel

/-- V-SC-12. -/
theorem test_wrU32 : responseOf (.wrU32 zeros16 12 (0x80000000)) testState = some (.ok (.written (known (byteList [0, 0, 0, 0, 0, 0, 0, 0, 0, 0, 0, 0, 0, 0, 0, 0x80])) 16)) := by
  decide +kernel

/-- V-SC-13. -/
theorem test_wrI32 : responseOf (.wrI32 zeros16 9 (-3)) testState = some (.ok (.written (known (byteList [0, 0, 0, 0, 0, 0, 0, 0, 0, 0xFD, 0xFF, 0xFF, 0xFF, 0, 0, 0])) 13)) := by
  decide +kernel

/-- V-SC-15. -/
theorem test_wrU64 : responseOf (.wrU64 zeros16 0 (0x0807060504030201)) testState = some (.ok (.written (known (byteList [1, 2, 3, 4, 5, 6, 7, 8, 0, 0, 0, 0, 0, 0, 0, 0])) 8)) := by
  decide +kernel

/-- V-SC-18. -/
theorem test_wrI64 : responseOf (.wrI64 zeros16 0 (-9223372036854775808)) testState = some (.ok (.written (known (byteList [0, 0, 0, 0, 0, 0, 0, 0x80, 0, 0, 0, 0, 0, 0, 0, 0])) 8)) := by
  decide +kernel

/-- V-SC-28. -/
theorem test_rdU8 : responseOf (.rdU8 bufS4 7) testState = some (.ok (.value (254) 8)) := by
  decide +kernel

/-- V-SC-33. -/
theorem test_rdU8_range : responseOf (.rdU8 bufS4 13) testState = some (.error .bufferRange) := by
  decide +kernel

/-- V-SC-27. -/
theorem test_rdI8 : responseOf (.rdI8 bufS4 7) testState = some (.ok (.value (-2) 8)) := by
  decide +kernel

/-- V-SC-22. -/
theorem test_rdU16 : responseOf (.rdU16 bufS4 1) testState = some (.ok (.value (0x0302) 3)) := by
  decide +kernel

/-- V-SC-24. -/
theorem test_rdI16 : responseOf (.rdI16 bufS4 7) testState = some (.ok (.value (-2) 9)) := by
  decide +kernel

/-- V-SC-34. -/
theorem test_rdU32 : responseOf (.rdU32 bufS4 9) testState = some (.ok (.value (4294967293) 13)) := by
  decide +kernel

/-- V-SC-25. -/
theorem test_rdI32 : responseOf (.rdI32 bufS4 9) testState = some (.ok (.value (-3) 13)) := by
  decide +kernel

/-- V-SC-29. -/
theorem test_rdU64 : responseOf (.rdU64 bufS4 0) testState = some (.ok (.value (0xFE07060504030201) 8)) := by
  decide +kernel

/-- V-SC-30. -/
theorem test_rdI64 : responseOf (.rdI64 bufS4 5) testState = some (.ok (.value (-8590063866) 13)) := by
  decide +kernel

/-- V-SC-20. -/
theorem test_msgEncode : responseOf (.msgEncode 1#10 fieldsS4) testState = some (.ok (.msg messageS4)) := by
  decide +kernel

/-- V-SC-42. -/
theorem test_msgEncode_over : responseOf (.msgEncode 0#10 (List.replicate 31 (.u64, 0))) testState = some (.error .refused) := by
  decide +kernel

/-- V-SC-35. -/
theorem test_msgDecode : responseOf (.msgDecode messageS4 [.u8, .u16, .u32, .i16, .i32]) testState = some (.ok (.vals [1, 0x0302, 0x07060504, -2, -3])) := by
  decide +kernel

/-- V-SC-36. -/
theorem test_msgDecode_short : responseOf (.msgDecode messageS4 [.u8, .u16, .u32, .i16, .i32, .u8]) testState = some (.error .lengthMismatch) := by
  decide +kernel

/-- V-EN-2. -/
theorem test_frameEnc : responseOf (.frameEnc message1) testState = some (.ok (.frame (known frame1))) := by
  decide +kernel

/-- V-EN-2, CRC_COVERS_LEN = true. -/
theorem test_frameEnc_coversLen : responseOf (.frameEnc message1) lenState = some (.ok (.frame (known (frame1.take 7 ++ byteList [0x00, 0x16, 0x3B, 0xFE, 0x1F])))) := by
  decide +kernel

/-- V-DEC-3. -/
theorem test_frameDec : responseOf (.frameDec (known (byteList [0x1E, 0x05, 0x1E] ++ frame1))) testState = some (.ok (.msg message1)) := by
  decide +kernel

/-- V-DEC-9. -/
theorem test_frameDec_changed : responseOf (.frameDec (known (frame1.set 6 0xAB#8))) testState = some (.ok (.msg invalidMessage)) := by
  decide +kernel

/-- V-MS-1. -/
theorem test_msgNew : responseOf (.msgNew 1#10 13) testState = some (.ok (.msg { msgId := some 1#10, src := none, dst := none, payload := some ⟨List.replicate 13 none, by decide⟩, valid := true })) := by
  decide +kernel

/-- V-MS-4. -/
theorem test_msgNew_over : responseOf (.msgNew 5#10 248) testState = some (.error .refused) := by
  decide +kernel

/-- V-MS-5. -/
theorem test_msgSetSrc : responseOf (.msgSetSrc messageS4 ⟨7#5, 1#6⟩) testState = some (.ok (.msg { messageS4 with src := some ⟨7#5, 1#6⟩ })) := by
  decide +kernel

/-- V-MS-6. -/
theorem test_msgSetDst : responseOf (.msgSetDst messageS4 ⟨2#5, 10#6⟩) testState = some (.ok (.msg { messageS4 with dst := some ⟨2#5, 10#6⟩ })) := by
  decide +kernel

/-- V-MS-7. -/
theorem test_msgGetPayload : responseOf (.msgGetPayload message1) testState = some (.ok (.payload [some 0xAA#8])) := by
  decide +kernel

/-- V-MS-8. -/
theorem test_msgSetPayload : responseOf (.msgSetPayload message1 (known (byteList [1, 2, 3, 4, 5, 6, 7, 8, 9, 10]))) testState = some (.ok (.msg (fullMessage 1#10 ⟨7#5, 1#6⟩ ⟨2#5, 10#6⟩ (knownPayload [1, 2, 3, 4, 5, 6, 7, 8, 9, 10] (by decide)) true))) := by
  decide +kernel

/-- V-MS-9. -/
theorem test_msgSetPayload_over : responseOf (.msgSetPayload message1 (List.replicate 248 none)) testState = some (.error .refused) := by
  decide +kernel

/-- V-MS-10. -/
theorem test_msgGetLength : responseOf (.msgGetLength message1) testState = some (.ok (.length 1)) := by
  decide +kernel

/-- V-MS-17. -/
theorem test_msgEq : responseOf (.msgEq message1 (fullMessage 1#10 ⟨7#5, 1#6⟩ ⟨2#5, 10#6⟩ payload1 false)) testState = some (.ok (.equal true)) := by
  decide +kernel

/-- V-MS-16. -/
theorem test_msgEq_src : responseOf (.msgEq message1 (fullMessage 1#10 ⟨1#5, 7#6⟩ ⟨2#5, 10#6⟩ payload1 true)) testState = some (.ok (.equal false)) := by
  decide +kernel

/-- R37, with the outcomes of V-AD-23, V-SC-3 and V-SC-36. -/
theorem test_statusCode : [responseOf (.addrPack 0#5 0#6) testState,
    responseOf (.msgDecode messageS4 [.u64, .u64]) testState, responseOf (.wrU8 zeros16 16 0) testState,
    responseOf (.taskFromOffset 30#5) testState].map (fun r => r.map statusCode) =
      [some 0#2, some 1#2, some 2#2, some 3#2] := by decide +kernel

/-- The check values of the checksum (R263). -/
theorem test_crc32 : crc32IsoHdlc (byteList [0x31, 0x32, 0x33, 0x34, 0x35, 0x36, 0x37, 0x38, 0x39]) = 0xCBF43926#32 ∧
    crc32IsoHdlc [] = 0#32 ∧ crc32IsoHdlc [0#8] = 0xD202EF8D#32 := by decide +kernel

/-- V-DEC-14: the outer frame fails its checksum, the inner one is found at SC.STX = 6. -/
theorem test_frameDec_inner : firstFrame crc32IsoHdlc false (byteList [0x1E, 0x15, 0x65, 0x08, 0x7F, 0x55] ++ frame1 ++
    byteList [0x88, 0x04, 0x03, 0xFD, 0xC6, 0x1F]) = some 6 := by decide +kernel

/-! ### Witnesses: the hypotheses of each statement hold together somewhere -/

theorem witness_StepServesTheDecodedRequest :
    ({ testState with requests := [encode (.addrPack 5#5 3#6)] } : State).requests =
      encode (.addrPack 5#5 3#6) :: [] ∧
    decode (encode (.addrPack 5#5 3#6)) = .ok (.addrPack 5#5 3#6) := by decide +kernel

theorem witness_StepWithoutRequestWaits : testState.requests = [] := by decide

/-- The codes at the ends of the reserved runs of each unit, and the last code. -/
theorem witness_ReservedSelectIsRefused :
    [0x03#8, 0x0F#8, 0x12#8, 0x1F#8, 0x32#8, 0x3F#8, 0x42#8, 0x4F#8, 0x57#8, 0x60#8, 0xFF#8].all (fun op => decide (op.toNat ∉
      [0x00, 0x01, 0x02, 0x10, 0x11, 0x20, 0x21, 0x22, 0x23, 0x24, 0x25, 0x26, 0x27, 0x28, 0x29, 0x2A,
      0x2B, 0x2C, 0x2D, 0x2E, 0x2F, 0x30, 0x31, 0x40, 0x41, 0x50, 0x51, 0x52, 0x53, 0x54, 0x55, 0x56])) = true ∧
    (presentWord testState 0x57).requests = ⟨0x57#8, Operands.zero⟩ :: [] := by decide +kernel

theorem witness_StepKeepsParameters : ∃ t, step (presentWord testState 0x00) = .next t :=
  ⟨_, rfl⟩

theorem witness_OnlyFrameDecMovesTheScanner :
    (∀ bytes, Instr.addrPack 5#5 3#6 ≠ .frameDec bytes) ∧ ∃ t, exec (.addrPack 5#5 3#6) testState = .next t :=
  ⟨fun _ h => (nomatch h), _, rfl⟩

/-- Two states that differ in everything a history leaves. -/
def otherState : State :=
  { testState with scanner := { state := .success, pos := 0, stx := 0, len := 9#8, buf := frame1 },
                   lastResponse := some (.error .refused), requests := [encode (.addrUnpack 0#11)] }

theorem witness_ResponseIgnoresHistory :
    testState.params = otherState.params ∧ testState.free = otherState.free ∧ testState ≠ otherState := by
  decide +kernel

theorem witness_OutcomesByOperation :
    responseOf (.msgDecode messageS4 [.u64, .u64]) testState = some (.error .lengthMismatch) ∧
    responseOf (.wrU8 zeros16 16 0) testState = some (.error .bufferRange) ∧
    responseOf (.rdU8 zeros16 16) testState = some (.error .bufferRange) ∧
    responseOf (.taskFromOffset 31#5) testState = some (.error .refused) ∧
    responseOf (.wrU8 zeros16 0 256) testState = some (.error .refused) ∧
    responseOf (.msgEncode 0#10 [(.u8, 256)]) testState = some (.error .refused) ∧
    responseOf (.msgNew 0#10 248) testState = some (.error .refused) := by decide +kernel

/-- The FAILURE clause of the invariant, at a state whose SC.BUF holds bytes, with a request to serve. -/
theorem witness_StepKeepsScannerAtRest_failure :
    ({ testState with scanner := { Scanner.reset with pos := 1, buf := [0x1E#8] },
                      requests := [encode (.frameDec (known frame1))] } : State).Inv ∧
    ∃ t, step { testState with scanner := { Scanner.reset with pos := 1, buf := [0x1E#8] },
                               requests := [encode (.frameDec (known frame1))] } = .next t := by
  refine ⟨.inl ⟨rfl, rfl, fun i => ?_⟩, _, rfl⟩
  cases i <;> simp [frameAt]

/-- The SUCCESS clause. -/
theorem witness_StepKeepsScannerAtRest_success : otherState.Inv ∧ ∃ t, step otherState = .next t := by
  refine ⟨.inr ⟨rfl, rfl, rfl, by decide +kernel, fun i hi => absurd hi (Nat.not_lt_zero i)⟩, _, rfl⟩

/-- The largest task that is neither refused for its size nor TASK_BROADCAST; both refusals. -/
theorem witness_TaskFromOffsetAddsOrRefuses :
    (testState.params.taskOffsetBase.val + (29#5).toNat < 32 ∧
      testState.params.taskOffsetBase.val + (29#5).toNat ≠ testState.params.taskBroadcast.toNat) ∧
    testState.params.taskOffsetBase.val + (30#5).toNat = testState.params.taskBroadcast.toNat ∧
    32 ≤ testState.params.taskOffsetBase.val + (31#5).toNat := by decide +kernel

/-- Writes that end at the buffer's end, of an extreme value of each sign. -/
theorem witness_WriteStoresLeastSignificantFirst :
    (scalarMin .u64 ≤ 18446744073709551615 ∧ 18446744073709551615 ≤ scalarMax .u64 ∧
      8 + scalarWidth .u64 ≤ zeros16.length) ∧
    (scalarMin .i8 ≤ -128 ∧ (-128 : Int) ≤ scalarMax .i8 ∧ 15 + scalarWidth .i8 ≤ zeros16.length) := by
  decide +kernel

theorem witness_ReadGivesTheValueOfTheBytes :
    9 + scalarWidth .i32 ≤ bufS4.length ∧ bufS4[9 + 3]? = some (some 0xFF#8) := by decide +kernel

theorem witness_AccessOutsideBufferIsBufferRange :
    zeros16.length < 16 + scalarWidth .u8 ∧ zeros16.length < 9 + scalarWidth .i64 ∧ scalarMin .u8 ≤ 0 ∧
    (0 : Int) ≤ scalarMax .u8 := by decide +kernel

theorem witness_ValueOutsideTypeIsRefused : (-1 : Int) < scalarMin .u8 ∧ scalarMax .i16 < 32768 := by decide +kernel

theorem witness_ReadAfterWriteGivesTheValue :
    scalarMin .i64 ≤ -9223372036854775808 ∧ (-9223372036854775808 : Int) ≤ scalarMax .i64 ∧
    8 + scalarWidth .i64 ≤ zeros16.length := by decide +kernel

theorem witness_NarrowReadSeesPartOfWideWrite : 12 + 4 ≤ zeros16.length := by decide +kernel

/-- A field list of exactly 247 bytes and one of 248. -/
def fields247 : List (ScalarType × Int) := List.replicate 30 (.u64, 1) ++ [(.u32, 2), (.u16, 3), (.u8, 255)]

theorem witness_MsgEncodeConcatenatesFields :
    ((∀ f ∈ fields247, scalarMin f.1 ≤ f.2 ∧ f.2 ≤ scalarMax f.1) ∧
      (fields247.map fun f => scalarWidth f.1).sum = 247) ∧
    247 < ((fields247 ++ [(ScalarType.i8, (0 : Int))]).map fun f => scalarWidth f.1).sum ∧
    ∃ f ∈ [(ScalarType.u8, (256 : Int))], f.2 < scalarMin f.1 ∨ scalarMax f.1 < f.2 := by decide +kernel

/-- A field that stands between others. -/
theorem witness_MsgEncodeConcatenatesFields_field :
    fieldsS4 = [(.u8, 1), (.u16, 0x0302)] ++ (.u32, 0x07060504) :: [(.i16, -2), (.i32, -3)] ∧
    3 < scalarWidth .u32 := by decide +kernel

theorem witness_MsgEncodeIsNewThenWrites :
    (∀ f ∈ fieldsS4, scalarMin f.1 ≤ f.2 ∧ f.2 ≤ scalarMax f.1) ∧
    (fieldsS4.map fun f => scalarWidth f.1).sum ≤ 247 := by decide +kernel

theorem witness_MsgDecodeReadsFieldsInOrder :
    messageS4.payload = some ⟨bufS4, by decide⟩ ∧ (([.u64, .u32, .u8] : List ScalarType).map scalarWidth).sum = bufS4.length ∧
    bufS4.length < (([.u64, .u32, .u16] : List ScalarType).map scalarWidth).sum ∧
    ([.u64, .u32, .u8] : List ScalarType) = [.u64] ++ .u32 :: [.u8] ∧
    bufS4[(([.u64] : List ScalarType).map scalarWidth).sum + 3]? = some (some 0xFF#8) := by decide +kernel

theorem witness_MsgDecodeIsReads :
    messageS4.payload = some ⟨bufS4, by decide⟩ ∧
    (([.u64, .u32, .u8] : List ScalarType).map scalarWidth).sum ≤ bufS4.length := by decide +kernel

theorem witness_MsgDecodeInvertsMsgEncode :
    (∀ f ∈ fields247, scalarMin f.1 ≤ f.2 ∧ f.2 ≤ scalarMax f.1) ∧
    (fields247.map fun f => scalarWidth f.1).sum ≤ 247 := by decide +kernel

theorem witness_FrameEncLaysOutTheFrame : maxKnownPayload.val.length = 246 := by decide +kernel

theorem witness_FrameHeaderBytesHoldTheFields : payload1.val.length ≤ 246 := by decide +kernel

/-- The longest payload a Message holds, one byte longer than FRAME_ENC takes. -/
def oversized : Payload := ⟨List.replicate 247 none, by rw [List.length_replicate]; decide⟩

theorem witness_FrameEncRefusesOversizedPayload :
    ({ messageS4 with payload := some oversized } : Message).payload = some oversized ∧ oversized.val.length = 247 ∧
    246 < (List.replicate 247 (none : ByteCell)).length := by decide +kernel

/-- A field unset at a time, a payload byte UNSPECIFIED in a payload of the greatest length, and nothing unset. -/
theorem witness_FrameOfUnsetAddressesIsPartlyUnspecified :
    (messageS4.payload = some ⟨bufS4, by decide⟩ ∧ bufS4.length ≤ 246 ∧ messageS4.src = none ∧ messageS4.dst = none ∧
      messageS4.msgId = some 1#10) ∧
    (({ messageS4 with msgId := none, dst := some ⟨2#5, 10#6⟩ } : Message).msgId = none ∧
      ({ messageS4 with msgId := none, dst := some ⟨2#5, 10#6⟩ } : Message).dst = some ⟨2#5, 10#6⟩) ∧
    (none ∈ List.replicate 246 (none : ByteCell) ∧ (List.replicate 246 (none : ByteCell)).length ≤ 246) ∧
    message1.src = some ⟨7#5, 1#6⟩ ∧ message1.dst = some ⟨2#5, 10#6⟩ ∧ message1.msgId = some 1#10 ∧
    none ∉ known payload1.val := by
  decide +kernel

/-- The invalid Message, and a value that MSG_DECODE of it may give. -/
theorem witness_InvalidMessageGivesUnspecifiedFrameAndValues :
    invalidMessage.payload = none ∧ ([ScalarType.u8])[0]? = some .u8 ∧ ([(255 : Int)])[0]? = some 255 := by
  decide +kernel

theorem witness_FrameDecReturnsTheLeastFrame :
    (frameAt crc32IsoHdlc false ([0x1E#8] ++ frame1) 1 = true ∧
      ∀ j, j < 1 → frameAt crc32IsoHdlc false ([0x1E#8] ++ frame1) j = false) ∧
    (∀ i, frameAt crc32IsoHdlc false [0x00#8] i = false) ∧
    bufS4[0]? = some (some 1#8) := by
  refine ⟨⟨by decide +kernel, by decide +kernel⟩, fun i => ?_, by decide +kernel⟩
  cases i <;> simp [frameAt]

theorem witness_ScannerFindsTheLeastFrame :
    firstFrame crc32IsoHdlc true [0x1E#8] = none ∧ firstFrame crc32IsoHdlc false ([0x1E#8] ++ frame1) = some 1 := by decide +kernel

/-- A scanner in a given state over the frame of V-EN-2. -/
def scannerAt (st : ScState) (pos stx : Nat) (len : Byte) (buf : List Byte) : Scanner :=
  { state := st, pos := pos, stx := stx, len := len, buf := buf }

/-- One scanner for each row of the transition table, at the row's bound where it has one. -/
theorem witness_ScannerFollowsTheTransitionTable :
    (frame1.length ≤ (scannerAt .searchStx 12 0 0#8 frame1).pos) ∧
    (scannerAt .searchStx 0 0 0#8 frame1).buf[0]? = some 0x1E#8 ∧
    ((scannerAt .searchStx 1 0 0#8 frame1).buf[1]? = some 9#8 ∧ 9#8 ≠ 0x1E#8) ∧
    (scannerAt .readLen 0 0 0#8 [0x1E#8]).buf.length ≤ 0 + 1 ∧
    ((scannerAt .readLen 0 0 0#8 (frame1.take 11)).buf[0 + 1]? = some 9#8 ∧ (frame1.take 11).length < 0 + 9 + 3) ∧
    ((scannerAt .readLen 0 0 0#8 frame1).buf[0 + 1]? = some 9#8 ∧ 0 + 9 + 3 ≤ frame1.length) ∧
    (scannerAt .checkBodyBounds 0 0 7#8 frame1).len.toNat < 8 ∧
    8 ≤ (scannerAt .checkBodyBounds 0 0 8#8 frame1).len.toNat ∧
    ((scannerAt .verifyCrc 0 0 9#8 frame1).buf[0 + 9 - 2]? = some 0x76#8 ∧ frame1[0 + 9 - 1]? = some 0x11#8 ∧
      frame1[0 + 9]? = some 0xD4#8 ∧ frame1[0 + 9 + 1]? = some 0xAE#8) ∧
    (scannerAt .verifyEtx 0 0 8#8 frame1).buf[0 + 8 + 2]? ≠ some 0x1F#8 ∧
    (scannerAt .verifyEtx 0 0 9#8 frame1).buf[0 + 9 + 2]? = some 0x1F#8 ∧
    (scannerAt .success 0 0 9#8 frame1).state = .success := by decide +kernel

theorem witness_FrameRoundTrip :
    maxKnownPayload.val.length ≤ 246 ∧ otherState.params.crc = testState.params.crc ∧
    otherState.params.crcCoversLen = testState.params.crcCoversLen := by
  decide +kernel

theorem witness_FrameRoundTripForAnyChecksum : maxKnownPayload.val.length ≤ 246 := by decide +kernel

/-- V-DEC-3 with two bytes behind the frame. -/
theorem witness_ResyncFindsTheFrameAfterGarbage :
    payload1.val.length ≤ 246 ∧ otherState.params.crc = testState.params.crc ∧
    otherState.params.crcCoversLen = testState.params.crcCoversLen ∧
    responseOf (.frameEnc (fullMessage 1#10 ⟨7#5, 1#6⟩ ⟨2#5, 10#6⟩ payload1 true)) testState =
      some (.ok (.frame (known frame1))) ∧
    ∀ i, i < (byteList [0x1E, 0x05, 0x1E]).length → frameAt (checksum testState.params.crc) testState.params.crcCoversLen
      (byteList [0x1E, 0x05, 0x1E] ++ frame1 ++ byteList [0xFF, 0x1E]) i = false := by decide +kernel

theorem witness_ChecksumDetectsOneChangedByte : (0x00#8 : Byte) ≠ 0x80#8 := by decide

/-- A checksum that detects a change of one byte: the sum of the bytes. -/
def byteSum (bs : List Byte) : BitVec 32 := bs.foldl (fun r b => r + b.setWidth 32) 0#32

theorem byteSum_detects : DetectsOneChangedByte byteSum := by
  have fold : ∀ (ys : List Byte) (r r' : BitVec 32),
      ys.foldl (fun r b => r + b.setWidth 32) r = ys.foldl (fun r b => r + b.setWidth 32) r' → r = r' := by
    intro ys
    induction ys with
    | nil => exact fun _ _ h => h
    | cons y ys ih => exact fun r r' h => (BitVec.add_left_inj _).1 (ih _ _ h)
  intro xs ys b d hbd h
  rw [byteSum, byteSum, List.foldl_append, List.foldl_append, List.foldl_cons, List.foldl_cons] at h
  have h := (BitVec.add_right_inj _).1 (fold _ _ _ h)
  exact hbd (by simpa using congrArg (BitVec.setWidth 8) h)

theorem witness_ChangedPayloadByteBreaksTheFrame :
    DetectsOneChangedByte byteSum ∧ payload1.val.length ≤ 246 ∧
    encodeFrame byteSum false (fullMessage 1#10 ⟨7#5, 1#6⟩ ⟨2#5, 10#6⟩ payload1 true) 0 =
      .ok (.frame (known (frame1.take 7 ++ byteList [0x2B, 0x01, 0x00, 0x00, 0x1F]))) ∧
    0 < payload1.val.length ∧
    (frame1.take 7 ++ byteList [0x2B, 0x01, 0x00, 0x00, 0x1F])[6 + 0]? ≠ some 0xAB#8 :=
  ⟨byteSum_detects, by decide +kernel⟩

theorem witness_ChangedPayloadByteIsRejected :
    testState.params.crc = .isoHdlc ∧
    payload1.val.length ≤ 246 ∧ otherState.params.crc = testState.params.crc ∧
    otherState.params.crcCoversLen = testState.params.crcCoversLen ∧
    responseOf (.frameEnc (fullMessage 1#10 ⟨7#5, 1#6⟩ ⟨2#5, 10#6⟩ payload1 true)) testState =
      some (.ok (.frame (known frame1))) ∧
    0 < payload1.val.length ∧ frame1[6 + 0]? ≠ some 0xAB#8 ∧
    ∀ i, 1 ≤ i → frameAt (checksum testState.params.crc) testState.params.crcCoversLen (frame1.set (6 + 0) 0xAB#8) i = false := by
  refine ⟨by decide +kernel, by decide +kernel, by decide +kernel, by decide +kernel, by decide +kernel,
    by decide +kernel, by decide +kernel, fun i hi => ?_⟩
  by_cases h : i < 12
  · have key : ∀ i, i < 12 → 1 ≤ i → frameAt (checksum testState.params.crc) testState.params.crcCoversLen (frame1.set (6 + 0) 0xAB#8) i = false := by
      decide +kernel
    exact key i h hi
  · have hl : (frame1.set (6 + 0) 0xAB#8)[i]? = none := List.getElem?_eq_none (by simp [frame1, byteList]; omega)
    simp [frameAt, hl]

theorem witness_TruncatedFrameIsRejected :
    payload1.val.length ≤ 246 ∧ otherState.params.crc = testState.params.crc ∧
    otherState.params.crcCoversLen = testState.params.crcCoversLen ∧
    responseOf (.frameEnc (fullMessage 1#10 ⟨7#5, 1#6⟩ ⟨2#5, 10#6⟩ payload1 true)) testState =
      some (.ok (.frame (known frame1))) ∧
    11 < frame1.length ∧
    ∀ i, 1 ≤ i → frameAt (checksum testState.params.crc) testState.params.crcCoversLen (frame1.take 11) i = false := by
  refine ⟨by decide +kernel, by decide +kernel, by decide +kernel, by decide +kernel, by decide +kernel,
    fun i hi => ?_⟩
  by_cases h : i < 12
  · have key : ∀ i, i < 12 → 1 ≤ i → frameAt (checksum testState.params.crc) testState.params.crcCoversLen (frame1.take 11) i = false := by
      decide +kernel
    exact key i h hi
  · have hl : (frame1.take 11)[i]? = none := List.getElem?_eq_none (by simp [frame1, byteList]; omega)
    simp [frameAt, hl]

/-- A buffer with no well-formed frame anywhere. -/
theorem witness_TruncatedFrameIsRejected_garbage :
    ∀ i, frameAt (checksum testState.params.crc) testState.params.crcCoversLen [0x00#8] i = false := by
  intro i
  cases i <;> simp [frameAt]

theorem witness_SettersReplaceOneAddress : messageS4.payload ≠ none ∧ invalidMessage.payload = none := by
  decide +kernel

theorem witness_MsgNewGivesUnspecifiedFields : (247 : Nat) ≤ 247 ∧ 247 < (248 : Nat) := by decide

theorem witness_MsgGetPayloadReadsThePayload : message1.payload = some ⟨[some 0xAA#8], by decide⟩ := by
  decide +kernel

theorem witness_MsgGetLengthReadsThePayloadLength : messageS4.payload = some ⟨bufS4, by decide⟩ := by decide +kernel

theorem witness_MsgSetPayloadReplacesThePayload :
    (List.replicate 247 (none : ByteCell)).length ≤ 247 ∧ 247 < (List.replicate 248 (none : ByteCell)).length ∧
    messageS4.payload ≠ none ∧ invalidMessage.payload = none := by
  decide +kernel

theorem witness_ValidIsWrittenByRule :
    ({ message1 with valid := false } : Message).payload ≠ none ∧
    ∃ t m, exec (.msgSetSrc { message1 with valid := false } ⟨7#5, 1#6⟩) testState = .next t ∧
      t.lastResponse = some (.ok (.msg m)) ∧ m.valid = false :=
  ⟨by decide +kernel, _, _, rfl, rfl, rfl⟩

/-- Both ends of FRAME_DEC's clause. -/
theorem witness_ValidIsWrittenByRule_frameDec :
    (∃ m, responseOf (.frameDec (known frame1)) testState = some (.ok (.msg m)) ∧ m.valid = true) ∧
    ∃ m, responseOf (.frameDec []) testState = some (.ok (.msg m)) ∧ m.valid = false :=
  ⟨⟨message1, by decide +kernel, rfl⟩, ⟨invalidMessage, by decide +kernel, rfl⟩⟩

end Sys2Proof.Tests
end

section
/-! The operations that read a Message's payload (45_message_entity R233, R235). -/

namespace Sys2Proof.Machine

theorem exec_msgGetPayload (m : Message) (s : State) :
    exec (.msgGetPayload m) s = complete (.ok (.payload (payloadFor s.free m).val)) s := rfl

theorem exec_msgGetLength (m : Message) (s : State) :
    exec (.msgGetLength m) s = complete (.ok (.length (payloadFor s.free m).val.length)) s := rfl

/-- Settles O49: BUF is the payload the operation works on, which the Message type bounds and which is the Message's
own payload where it has one. -/
theorem msgGetPayloadReadsThePayload : Obligations.MsgGetPayloadReadsThePayload := by
  intro s m
  refine ⟨rfl, (payloadFor s.free m).val, ?_, payloadFor_length_le s.free m, ?_⟩
  · rw [exec_msgGetPayload, complete_eq, State.respond]
  · intro p hp
    rw [payloadFor_of_some hp]

/-- Settles O50: LENGTH is the length of the payload the operation works on, so the bound and the value are those of
that payload. -/
theorem msgGetLengthReadsThePayloadLength : Obligations.MsgGetLengthReadsThePayloadLength := by
  intro s m
  refine ⟨rfl, (payloadFor s.free m).val.length, ?_, payloadFor_length_le s.free m, ?_⟩
  · rw [exec_msgGetLength, complete_eq, State.respond]
  · intro p hp
    rw [payloadFor_of_some hp]

end Sys2Proof.Machine
end

section
/-! The Address Codec (40_address_codec R120, R121). -/

namespace Sys2Proof.Machine

theorem exec_addrPack (task : TaskId) (node : NodeId) (s : State) :
    exec (.addrPack task node) s = complete (.ok (.addr (packAddr task node))) s := rfl

theorem exec_addrUnpack (a : Addr11) (s : State) :
    exec (.addrUnpack a) s = complete (.ok (.taskNode (addrTask a) (addrNode a))) s := rfl

/-- Settles O14: the ADDR answered is `packAddr task node`, whose two fields do not overlap (`packAddr_toNat`), so its
value is the sum. -/
theorem addrPackPutsNodeAboveTask : Obligations.AddrPackPutsNodeAboveTask := by
  intro s task node
  refine ⟨rfl, packAddr task node, packAddr_toNat task node, ?_⟩
  rw [exec_addrPack, complete_eq, State.respond]

/-- Settles O15: the fields answered are the bit ranges `addrTask a` and `addrNode a`, which are the remainder and the
quotient of ADDR (`addrTask_toNat`, `addrNode_toNat`). -/
theorem addrUnpackSplitsTaskAndNode : Obligations.AddrUnpackSplitsTaskAndNode := by
  intro s a
  refine ⟨rfl, addrTask a, addrNode a, addrTask_toNat a, addrNode_toNat a, ?_⟩
  rw [exec_addrUnpack, complete_eq, State.respond]

end Sys2Proof.Machine
end

section
/-! The Header Codec (41_header_codec R140, R141). -/

namespace Sys2Proof.Machine

theorem exec_hdrPack (src dst : Addr11) (id : MessageId) (s : State) :
    exec (.hdrPack src dst id) s = complete (.ok (.hdr (packHeader src dst id))) s := rfl

theorem exec_hdrUnpack (h : Hdr32) (s : State) :
    exec (.hdrUnpack h) s = complete (.ok (.header (headerSrc h) (headerDst h) (headerMsgId h))) s := rfl

/-- Settles O18: the HDR answered is `packHeader src dst id`, whose three fields do not overlap (`packHeader_toNat`),
so its value is the sum. -/
theorem hdrPackLaysOutThreeFields : Obligations.HdrPackLaysOutThreeFields := by
  intro s src dst id
  refine ⟨rfl, packHeader src dst id, packHeader_toNat src dst id, ?_⟩
  rw [exec_hdrPack, complete_eq, State.respond]

/-- Settles O19: the fields answered are the bit ranges `headerSrc h`, `headerDst h` and `headerMsgId h`, whose values
are remainders and quotients of HDR (`headerSrc_toNat`, `headerDst_toNat`, `headerMsgId_toNat`). -/
theorem hdrUnpackSplitsThreeFields : Obligations.HdrUnpackSplitsThreeFields := by
  intro s h
  refine ⟨rfl, headerSrc h, headerDst h, headerMsgId h, headerSrc_toNat h, headerDst_toNat h, headerMsgId_toNat h, ?_⟩
  rw [exec_hdrUnpack, complete_eq, State.respond]

end Sys2Proof.Machine
end

section
/-! The Frame Encoder (43_frame_encoder R190, R191): where each part of a frame stands. -/

namespace Sys2Proof.Machine

theorem exec_frameEnc (m : Message) (s : State) :
    exec (.frameEnc m) s =
      complete (encodeFrame (checksum s.params.crc) s.params.crcCoversLen m s.free) s := rfl

section

variable {crc : List Byte → BitVec 32} {cov : Bool} {id : MessageId} {src dst : Address} {p : List Byte}

/-- Behind STX and LEN a frame is the header, the payload, the checksum and ETX, in this order (R190). -/
theorem frameBytes_getElem?_add_two (j : Nat) :
    (frameBytes crc cov id src dst p)[2 + j]? =
      (leBytes 4 (headerWord id src dst).toNat ++
        (p ++ (leBytes 4 (crc (spanBytes cov id src dst p)).toNat ++ [etxByte])))[j]? := by
  rw [← List.getElem?_drop, frameBytes_drop_two, bodyBytes, List.append_assoc]

theorem frameBytes_getElem?_header {i : Nat} (h : i < 4) :
    (frameBytes crc cov id src dst p)[2 + i]? = some (BitVec.ofNat 8 (headerNumber id src dst / 256 ^ i)) := by
  rw [frameBytes_getElem?_add_two, List.getElem?_append_left (by rwa [leBytes_length]),
    leBytes_getElem? _ _ _ h, headerWord_toNat]

/-- Behind the header a frame is the payload, the checksum and ETX. -/
theorem frameBytes_getElem?_add_six (j : Nat) :
    (frameBytes crc cov id src dst p)[6 + j]? =
      (p ++ (leBytes 4 (crc (spanBytes cov id src dst p)).toNat ++ [etxByte]))[j]? := by
  rw [show 6 + j = 2 + (4 + j) by omega, frameBytes_getElem?_add_two,
    List.getElem?_append_right (by rw [leBytes_length]; omega), leBytes_length, Nat.add_sub_cancel_left]

theorem frameBytes_getElem?_payload {i : Nat} (h : i < p.length) :
    (frameBytes crc cov id src dst p)[6 + i]? = p[i]? := by
  rw [frameBytes_getElem?_add_six, List.getElem?_append_left h]

/-- Behind the payload a frame is the checksum and ETX. -/
theorem frameBytes_getElem?_behind_payload (j : Nat) :
    (frameBytes crc cov id src dst p)[6 + p.length + j]? =
      (leBytes 4 (crc (spanBytes cov id src dst p)).toNat ++ [etxByte])[j]? := by
  rw [Nat.add_assoc, frameBytes_getElem?_add_six, List.getElem?_append_right (by omega), Nat.add_sub_cancel_left]

theorem frameBytes_getElem?_checksum {i : Nat} (h : i < 4) :
    (frameBytes crc cov id src dst p)[6 + p.length + i]? =
      some (BitVec.ofNat 8 ((crc (spanBytes cov id src dst p)).toNat / 256 ^ i)) := by
  rw [frameBytes_getElem?_behind_payload, List.getElem?_append_left (by rwa [leBytes_length]),
    leBytes_getElem? _ _ _ h]

theorem frameBytes_getElem?_etx :
    (frameBytes crc cov id src dst p)[10 + p.length]? = some etxByte := by
  rw [show 10 + p.length = 6 + p.length + 4 by omega, frameBytes_getElem?_behind_payload,
    List.getElem?_append_right (by rw [leBytes_length]), leBytes_length]
  rfl

/-- The bytes the checksum covers, cut from the frame itself (R88, D6). -/
theorem frameBytes_span :
    (if cov then ((frameBytes crc cov id src dst p).drop 1).take (p.length + 5)
      else ((frameBytes crc cov id src dst p).drop 2).take (p.length + 4)) = spanBytes cov id src dst p := by
  rw [← crcSpan_frameBytes crc cov]
  simp only [crcSpan, slice, Nat.zero_add]
  rfl

end

/-- Settles O33: the frame answered is `frameBytes` (`encodeFrame_fullMessage`), and the lemmas above say what stands
at each of its indices. -/
theorem frameEncLaysOutTheFrame : Obligations.FrameEncLaysOutTheFrame := by
  intro s id src dst p valid hp
  refine ⟨rfl, frameBytes (checksum s.params.crc) s.params.crcCoversLen id src dst p.val, ?_,
    frameBytes_length _ _ _ _ _ _, rfl, congrArg some (lenByte_toNat hp),
    fun _ => frameBytes_getElem?_header, fun _ => frameBytes_getElem?_payload, fun i hi => ?_,
    frameBytes_getElem?_etx⟩
  · rw [exec_frameEnc, encodeFrame_fullMessage _ _ _ _ _ _ _ _ hp, complete_eq, State.respond]
  · rw [frameBytes_span, frameBytes_getElem?_checksum hi]

end Sys2Proof.Machine
end

section
/-! The step and the scanner registers (10_state section 3, 44_frame_decoder R202 to R214): a scan comes to rest, and
no step but one that serves FRAME_DEC touches the registers. -/

namespace Sys2Proof.Machine

section

variable (crc : List Byte → BitVec 32) (cov : Bool)

/-- SUCCESS and FAILURE are never left (R209, R210). -/
theorem scanStep_of_terminal {sc : Scanner} (h : sc.state = .success ∨ sc.state = .failure) :
    scanStep crc cov sc = sc := by
  rcases h with h | h <;> simp [scanStep, h]

/-- After `n` steps a scan is over, or the measure has sunk by `n`. -/
theorem scanSteps_terminal_or_measure (n : Nat) {sc : Scanner} (h : ScanInv crc cov sc) :
    ((scanSteps crc cov n sc).state = .success ∨ (scanSteps crc cov n sc).state = .failure) ∨
      n + scanMeasure (scanSteps crc cov n sc) ≤ scanMeasure sc := by
  induction n with
  | zero => exact .inr (Nat.zero_add _).le
  | succ n ih =>
    rw [scanSteps_succ]
    rcases ih with ht | hm
    · rw [scanStep_of_terminal crc cov ht]
      exact .inl ht
    · obtain ⟨-, -, -, hs | hf | hlt⟩ := scanStep_spec crc cov (scanSteps_inv crc cov n h).1
      · rw [scanStep_of_terminal crc cov (.inl hs)]
        exact .inl (.inl hs)
      · rw [scanStep_of_terminal crc cov (.inr hf)]
        exact .inl (.inr hf)
      · exact .inr (by omega)

/-- A scan that is not over can still take a step, so its measure is not 0. -/
theorem scanMeasure_pos {sc : Scanner} (h : ScanInv crc cov sc)
    (ht : ¬(sc.state = .success ∨ sc.state = .failure)) : 0 < scanMeasure sc := by
  obtain ⟨-, -, -, hs | hf | hlt⟩ := scanStep_spec crc cov h
  · exact absurd (.inl hs) ht
  · exact absurd (.inr hf) ht
  · omega

/-- R214: the 6L + 1 steps of a whole scan reach SUCCESS or FAILURE. -/
theorem scan_terminal (B : List Byte) (k : Nat) :
    (scan crc cov B k).state = .success ∨ (scan crc cov B k).state = .failure := by
  by_contra ht
  have hinv := scanInv_start crc cov B k
  have hpos := scanMeasure_pos crc cov (scanSteps_inv crc cov (6 * B.length + 1) hinv).1 ht
  have hstart : scanMeasure (scanStart B k) = 6 * B.length + 1 := rfl
  rcases scanSteps_terminal_or_measure crc cov (6 * B.length + 1) hinv with h | h
  · exact ht h
  · omega

/-- What a scan knows of its input when it is over. -/
theorem scannerAtRest_of_scanInv {sc : Scanner} (h : ScanInv crc cov sc)
    (ht : sc.state = .success ∨ sc.state = .failure) : ScannerAtRest crc cov sc := by
  rcases ht with hs | hf
  · simp only [ScanInv, hs] at h
    exact .inr ⟨hs, h⟩
  · simp only [ScanInv, hf] at h
    exact .inl ⟨hf, h⟩

/-- A whole scan leaves the scanner registers at rest. -/
theorem scan_atRest (B : List Byte) (k : Nat) : ScannerAtRest crc cov (scan crc cov B k) :=
  scannerAtRest_of_scanInv crc cov (scanSteps_inv crc cov _ (scanInv_start crc cov B k)).1
    (scan_terminal crc cov B k)

/-- SC.POS stands on a byte of SC.BUF, or at its end. -/
theorem scanInv_pos_le {sc : Scanner} (h : ScanInv crc cov sc) : sc.pos ≤ sc.buf.length := by
  unfold ScanInv at h
  split at h
  case h_1 => exact h.1
  case h_7 => exact h.1.le
  case h_6 =>
    obtain ⟨hpos, -, hframe, -⟩ := h
    obtain ⟨-, hstx, -⟩ := (frameAt_eq_true crc cov).1 hframe
    exact hpos ▸ (lt_length_of_getElem? hstx).le
  all_goals
    obtain ⟨hpos, hstx, -⟩ := h
    exact hpos ▸ (lt_length_of_getElem? hstx).le

@[simp] theorem scan_buf (B : List Byte) (k : Nat) : (scan crc cov B k).buf = B :=
  (scanSteps_inv crc cov _ (scanInv_start crc cov B k)).2

end

/-- Serving an operation keeps the parameters; it keeps the scanner registers too, or it is FRAME_DEC and leaves them
as its scan does. -/
theorem exec_next {i : Instr} {s t : State} (h : exec i s = .next t) :
    t.params = s.params ∧ (t.scanner = s.scanner ∨ ∃ bytes, i = .frameDec bytes ∧
      t.scanner = scan (checksum s.params.crc) s.params.crcCoversLen (resolve s.free bytes) s.free) := by
  obtain ⟨r, hr | ⟨bytes, hi, hr⟩⟩ := exec_cases i s
  · obtain rfl := complete_next (hr.symm.trans h)
    exact ⟨rfl, .inl rfl⟩
  · obtain rfl := complete_next (hr.symm.trans h)
    exact ⟨rfl, .inr ⟨bytes, hi, rfl⟩⟩

/-- A step keeps the parameters, and it keeps the scanner registers or leaves them as a whole scan does. -/
theorem step_next {s t : State} (h : step s = .next t) :
    t.params = s.params ∧ (t.scanner = s.scanner ∨
      ∃ B k, t.scanner = scan (checksum s.params.crc) s.params.crcCoversLen B k) := by
  rcases step_cases h with ⟨-, rfl⟩ | ⟨r, rest, -, ⟨op, -, rfl⟩ | ⟨i, -, hi⟩⟩
  · exact ⟨rfl, .inl rfl⟩
  · exact ⟨rfl, .inl rfl⟩
  · obtain ⟨hp, hs | ⟨bytes, -, hs⟩⟩ := exec_next hi
    · exact ⟨hp, .inl hs⟩
    · exact ⟨hp, .inr ⟨_, _, hs⟩⟩

/-- Settles O13: a step leaves the registers alone (`step_next`), so that the invariant stays, or as a whole scan does,
which comes to rest on every input (`scan_atRest`). -/
theorem stepKeepsScannerAtRest : Obligations.StepKeepsScannerAtRest := by
  intro s t hinv hstep
  obtain ⟨hp, hs | ⟨B, k, hs⟩⟩ := step_next hstep
  · rw [State.Inv, hp, hs]
    exact hinv
  · rw [State.Inv, hp, hs]
    exact scan_atRest _ _ B k

/-- Settles O12: the registers after reset are those of a failed scan of the empty input. -/
theorem resetMeetsInvariant : Obligations.ResetMeetsInvariant :=
  .inl ⟨rfl, rfl, fun _ => frameAt_false_of_ge _ _ (Nat.zero_le _)⟩

/-- Settles O8: the parameters' half of `step_next`. -/
theorem stepKeepsParameters : Obligations.StepKeepsParameters :=
  fun _ _ h => (step_next h).1

/-- Settles O9: the scanner's half of `exec_next`, whose exception is FRAME_DEC. -/
theorem onlyFrameDecMovesTheScanner : Obligations.OnlyFrameDecMovesTheScanner := by
  intro i s t hi h
  obtain ⟨-, hs | ⟨bytes, rfl, -⟩⟩ := exec_next h
  · exact hs
  · exact absurd rfl (hi bytes)

/-- Settles O40: the bound is `scan_terminal`; SC.POS never decreases by `scanStep_spec`, and what `ScanInv` says of it
in each state keeps it within the input. -/
theorem scanEndsWithinSixLPlusOneSteps : Obligations.ScanEndsWithinSixLPlusOneSteps := by
  intro crc cov B k
  refine ⟨scan_terminal crc cov B k, fun n => ?_⟩
  obtain ⟨hinv, hbuf⟩ := scanSteps_inv crc cov n (scanInv_start crc cov B k)
  obtain ⟨-, -, hmono, -⟩ := scanStep_spec crc cov hinv
  rw [scanSteps_succ]
  exact ⟨hmono, (scanInv_pos_le crc cov hinv).trans_eq (congrArg List.length hbuf)⟩

end Sys2Proof.Machine
end

section
/-! The Frame Decoder against its functional form (44_frame_decoder R200, R213), and the round trip with the Frame
Encoder (R215 to R217). -/

namespace Sys2Proof.Machine

section

variable (crc : List Byte → BitVec 32) (cov : Bool)

theorem firstFrame_eq_some_iff {B : List Byte} {i : Nat} :
    firstFrame crc cov B = some i ↔
      frameAt crc cov B i = true ∧ ∀ j, j < i → frameAt crc cov B j = false := by
  rw [firstFrame, List.find?_range_eq_some]
  simp only [List.mem_range, Bool.not_eq_true', and_congr_right_iff, and_iff_right_iff_imp]
  intro hframe _
  obtain ⟨_, hstx, -⟩ := (frameAt_eq_true crc cov).1 hframe
  exact lt_length_of_getElem? hstx

theorem firstFrame_eq_none_iff {B : List Byte} :
    firstFrame crc cov B = none ↔ ∀ i, frameAt crc cov B i = false := by
  rw [firstFrame, List.find?_range_eq_none]
  simp only [Bool.not_eq_true']
  refine ⟨fun h i => ?_, fun h i _ => h i⟩
  by_cases hi : i < B.length
  · exact h i hi
  · exact frameAt_false_of_ge crc cov (Nat.le_of_not_lt hi)

/-- Of an input with a well-formed frame the scan ends in SUCCESS at the least one, with its length byte. -/
theorem scan_of_least {B : List Byte} {i : Nat} (k : Nat) (h : frameAt crc cov B i = true)
    (hleast : ∀ j, j < i → frameAt crc cov B j = false) :
    (scan crc cov B k).state = .success ∧ (scan crc cov B k).stx = i ∧
      B[i + 1]? = some (scan crc cov B k).len := by
  rcases scan_atRest crc cov B k with ⟨-, -, hnone⟩ | ⟨hs, -, hlen, hframe, hbefore⟩
  · rw [scan_buf] at hnone
    exact absurd (hnone i) (by simp [h])
  · rw [scan_buf] at hlen hframe hbefore
    have hstx : (scan crc cov B k).stx = i := by
      rcases Nat.lt_trichotomy (scan crc cov B k).stx i with hlt | heq | hgt
      · exact absurd (hleast _ hlt) (by simp [hframe])
      · exact heq
      · exact absurd (hbefore _ hgt) (by simp [h])
    exact ⟨hs, hstx, hstx ▸ hlen⟩

/-- Of an input with no well-formed frame the scan ends in FAILURE. -/
theorem scan_of_none {B : List Byte} (k : Nat) (h : ∀ i, frameAt crc cov B i = false) :
    (scan crc cov B k).state = .failure := by
  rcases scan_atRest crc cov B k with ⟨hf, -, -⟩ | ⟨-, -, -, hframe, -⟩
  · exact hf
  · rw [scan_buf, h] at hframe
    cases hframe

theorem scanMessage_of_least {B : List Byte} {i : Nat} {len : Byte} (k : Nat) (h : frameAt crc cov B i = true)
    (hleast : ∀ j, j < i → frameAt crc cov B j = false) (hlen : B[i + 1]? = some len) :
    scanMessage (scan crc cov B k) = messageAt B i len := by
  obtain ⟨hs, hstx, hl⟩ := scan_of_least crc cov k h hleast
  obtain rfl := Option.some.inj (hlen.symm.trans hl)
  rw [scanMessage, hs]
  simp only [scan_buf, hstx]

theorem scanMessage_of_none {B : List Byte} (k : Nat) (h : ∀ i, frameAt crc cov B i = false) :
    scanMessage (scan crc cov B k) = invalidMessage := by
  rw [scanMessage, scan_of_none crc cov k h]

/-- The scan of a frame behind garbage that starts none, whatever stands behind it, gives the Message it was made
from (R215 to R217). -/
theorem scanMessage_frameBytes (id : MessageId) (src dst : Address) (p : KnownPayload) (G X : List Byte) (k : Nat)
    (hp : p.val.length ≤ 246)
    (hG : ∀ i, i < G.length → frameAt crc cov (G ++ (frameBytes crc cov id src dst p.val ++ X)) i = false) :
    scanMessage (scan crc cov (G ++ (frameBytes crc cov id src dst p.val ++ X)) k) = fullMessage id src dst p true := by
  have hlen : (G ++ (frameBytes crc cov id src dst p.val ++ X))[G.length + 1]? =
      some (BitVec.ofNat 8 (p.val.length + 8)) := by
    rw [List.getElem?_append_right (by omega), Nat.add_sub_cancel_left]
    rfl
  rw [scanMessage_of_least crc cov k (frameAt_frameBytes crc cov id src dst G X p.val hp) hG hlen,
    messageAt_frameBytes crc cov id src dst G X p hp]

/-- The round trip, nothing standing before or behind the frame (R215). -/
theorem scanMessage_frameBytes_alone (id : MessageId) (src dst : Address) (p : KnownPayload) (k : Nat)
    (hp : p.val.length ≤ 246) :
    scanMessage (scan crc cov (frameBytes crc cov id src dst p.val) k) = fullMessage id src dst p true := by
  simpa using scanMessage_frameBytes crc cov id src dst p [] [] k hp (by simp)

end

/-- The frame FRAME_ENC answers for a Message with every field specified. -/
theorem responseOf_frameEnc_fullMessage (s : State) (id : MessageId) (src dst : Address) (p : KnownPayload)
    (valid : Bool) (hp : p.val.length ≤ 246) :
    responseOf (.frameEnc (fullMessage id src dst p valid)) s = some (.ok (.frame
      (known (frameBytes (checksum s.params.crc) s.params.crcCoversLen id src dst p.val)))) := by
  rw [responseOf_of_complete (exec_frameEnc _ s), encodeFrame_fullMessage _ _ _ _ _ _ _ _ hp]

theorem responseOf_frameDec_known (s : State) (B : List Byte) :
    responseOf (.frameDec (known B)) s =
      some (.ok (.msg (scanMessage (scan (checksum s.params.crc) s.params.crcCoversLen B s.free)))) := by
  rw [responseOf_of_complete (exec_frameDec _ s), resolve_known]

theorem exec_msgEq (a b : Message) (s : State) :
    exec (.msgEq a b) s = complete (.ok (.equal (messageEq a b s.free))) s := rfl

/-- EQ of two Messages with every field specified does not look at VALID (R237, D24). -/
theorem messageEq_fullMessage_iff {ia ib : MessageId} {sa sb da db : Address} {pa pb : KnownPayload} {va vb : Bool}
    {k : Nat} :
    messageEq (fullMessage ia sa da pa va) (fullMessage ib sb db pb vb) k = true ↔
      ia = ib ∧ sa = sb ∧ da = db ∧ pa.val = pb.val := by
  simp [messageEq, and_assoc]

/-- Settles O41: the frame is `frameBytes`, whose scan gives the Message back (`scanMessage_frameBytes_alone`). -/
theorem frameRoundTrip : Obligations.FrameRoundTrip := by
  intro s s' id src dst p valid hp hcrc hcov
  refine ⟨_, responseOf_frameEnc_fullMessage s id src dst p valid hp, ?_, ?_⟩
  · rw [responseOf_frameDec_known, hcrc, hcov, scanMessage_frameBytes_alone _ _ _ _ _ _ _ hp]
  · rw [responseOf_of_complete (exec_msgEq _ _ s'), messageEq_fullMessage_iff.2 ⟨rfl, rfl, rfl, rfl⟩]

/-- Settles O42: the round trip uses no property of the checksum function. -/
theorem frameRoundTripForAnyChecksum : Obligations.FrameRoundTripForAnyChecksum := by
  intro crc cov id src dst p valid k k' hp
  exact ⟨frameBytes crc cov id src dst p.val, encodeFrame_fullMessage crc cov id src dst p valid k hp,
    scanMessage_frameBytes_alone crc cov id src dst p k' hp⟩

theorem known_injective : Function.Injective known :=
  List.map_injective_iff.2 (Option.some_injective _)

/-- The bytes of the frame FRAME_ENC answered. -/
theorem eq_frameBytes_of_responseOf {s : State} {id : MessageId} {src dst : Address} {p : KnownPayload} {valid : Bool}
    {f : List Byte} (hp : p.val.length ≤ 246)
    (h : responseOf (.frameEnc (fullMessage id src dst p valid)) s = some (.ok (.frame (known f)))) :
    f = frameBytes (checksum s.params.crc) s.params.crcCoversLen id src dst p.val := by
  rw [responseOf_frameEnc_fullMessage s id src dst p valid hp] at h
  simp only [Option.some.injEq, Response.ok.injEq, Result.frame.injEq] at h
  exact (known_injective h).symm

/-- Settles O43: the frame is the least one, so `scanMessage_frameBytes` says what is decoded. -/
theorem resyncFindsTheFrameAfterGarbage : Obligations.ResyncFindsTheFrameAfterGarbage := by
  intro s s' id src dst p valid G X f hp hcrc hcov hf hG
  obtain rfl := eq_frameBytes_of_responseOf hp hf
  rw [List.append_assoc] at hG ⊢
  rw [responseOf_frameDec_known, hcrc, hcov, scanMessage_frameBytes _ _ _ _ _ _ _ _ _ hp hG]

/-- Settles O38: a scan is at rest at its end, at the least frame or, if there is none, in FAILURE. -/
theorem scannerFindsTheLeastFrame : Obligations.ScannerFindsTheLeastFrame := by
  intro crc cov B k
  refine ⟨scan_atRest crc cov B k, scan_buf crc cov B k, ?_, fun i => ?_⟩
  · rw [firstFrame_eq_none_iff]
    refine ⟨scan_of_none crc cov k, fun hf => ?_⟩
    rcases scan_atRest crc cov B k with ⟨-, -, hnone⟩ | ⟨hs, -⟩
    · rwa [scan_buf] at hnone
    · rw [hf] at hs
      cases hs
  · rw [firstFrame_eq_some_iff]
    constructor
    · rintro ⟨h, hleast⟩
      obtain ⟨hs, hstx, -⟩ := scan_of_least crc cov k h hleast
      exact ⟨hs, hstx⟩
    · rintro ⟨hs, rfl⟩
      rcases scan_atRest crc cov B k with ⟨hf, -⟩ | ⟨-, -, -, hframe, hbefore⟩
      · rw [hs] at hf
        cases hf
      · rw [scan_buf] at hframe hbefore
        exact ⟨hframe, hbefore⟩

end Sys2Proof.Machine
end

section
/-! The rows of the scanner's transition table (44_frame_decoder R203 to R208, R212), and what FRAME_DEC reads in the
least frame (R209). -/

namespace Sys2Proof.Machine

/-! ### Bytes read from a slice -/

/-- A slice of four is spelt by the four bytes it is cut from. -/
theorem slice_four {B : List Byte} {lo : Nat} {b0 b1 b2 b3 : Byte} (h0 : B[lo]? = some b0)
    (h1 : B[lo + 1]? = some b1) (h2 : B[lo + 2]? = some b2) (h3 : B[lo + 3]? = some b3) :
    slice B lo (lo + 4) = [b0, b1, b2, b3] := by
  obtain ⟨l0, rfl⟩ := List.getElem?_eq_some_iff.1 h0
  obtain ⟨l1, rfl⟩ := List.getElem?_eq_some_iff.1 h1
  obtain ⟨l2, rfl⟩ := List.getElem?_eq_some_iff.1 h2
  obtain ⟨l3, rfl⟩ := List.getElem?_eq_some_iff.1 h3
  rw [slice, Nat.add_sub_cancel_left, List.drop_eq_getElem_cons l0, List.drop_eq_getElem_cons l1,
    List.drop_eq_getElem_cons l2, List.drop_eq_getElem_cons l3]
  rfl

/-- `x ++ y` is `x` above `y`. -/
theorem toNat_append_eq {n m : Nat} (x : BitVec n) (y : BitVec m) :
    (x ++ y).toNat = x.toNat * 2 ^ m + y.toNat := by
  rw [BitVec.toNat_append, ← Nat.shiftLeft_add_eq_or_of_lt y.isLt, Nat.shiftLeft_eq]

/-- `from_le` of four bytes, as the word with the last of them on top (R13). -/
theorem fromLe_four (b0 b1 b2 b3 : Byte) : fromLe [b0, b1, b2, b3] = (b3 ++ b2 ++ b1 ++ b0).toNat := by
  simp only [fromLe, toNat_append_eq]
  omega

/-- The checksum a candidate carries, as a word (R207). -/
theorem storedCrc_eq {B : List Byte} {stx len : Nat} {b0 b1 b2 b3 : Byte} (hlen : 8 ≤ len)
    (h0 : B[stx + len - 2]? = some b0) (h1 : B[stx + len - 1]? = some b1) (h2 : B[stx + len]? = some b2)
    (h3 : B[stx + len + 1]? = some b3) : storedCrc B stx len = (b3 ++ b2 ++ b1 ++ b0).toNat := by
  obtain ⟨lo, hlo⟩ : ∃ lo, stx + len = lo + 2 := ⟨stx + len - 2, by omega⟩
  rw [hlo] at h0 h1 h2 h3
  rw [storedCrc, hlo, Nat.add_sub_cancel, Nat.add_assoc, slice_four (lo := lo) h0 h1 h2 h3, fromLe_four]

/-- The bytes the checksum covers, as the statement of the table cuts them (R88, R207). -/
theorem crcSpan_eq {cov : Bool} {B : List Byte} {stx len : Nat} :
    crcSpan cov B stx len =
      if cov then (B.drop (stx + 1)).take (len - 3) else (B.drop (stx + 2)).take (len - 4) := by
  have h1 : stx + len - 2 - (stx + 1) = len - 3 := by omega
  have h2 : stx + len - 2 - (stx + 2) = len - 4 := by omega
  rw [crcSpan, slice, slice, h1, h2]

/-! ### The rows of the table -/

section

variable {crc : List Byte → BitVec 32} {cov : Bool} {sc : Scanner}

theorem scanStep_searchStx (h : sc.state = .searchStx) : scanStep crc cov sc = stepSearchStx sc := by
  rw [scanStep, h]

theorem scanStep_readLen (h : sc.state = .readLen) : scanStep crc cov sc = stepReadLen sc := by
  rw [scanStep, h]

theorem scanStep_checkBodyBounds (h : sc.state = .checkBodyBounds) :
    scanStep crc cov sc = stepCheckBodyBounds sc := by
  rw [scanStep, h]

theorem scanStep_verifyCrc (h : sc.state = .verifyCrc) : scanStep crc cov sc = stepVerifyCrc crc cov sc := by
  rw [scanStep, h]

theorem scanStep_verifyEtx (h : sc.state = .verifyEtx) : scanStep crc cov sc = stepVerifyEtx sc := by
  rw [scanStep, h]

theorem stepSearchStx_end (h : sc.buf.length ≤ sc.pos) : stepSearchStx sc = { sc with state := .failure } := by
  rw [stepSearchStx, List.getElem?_eq_none h]

theorem stepSearchStx_stx (h : sc.buf[sc.pos]? = some stxByte) :
    stepSearchStx sc = { sc with state := .readLen, stx := sc.pos } := by
  rw [stepSearchStx, h]
  exact if_pos rfl

theorem stepSearchStx_other {b : Byte} (h : sc.buf[sc.pos]? = some b) (hb : b ≠ stxByte) :
    stepSearchStx sc = { sc with pos := sc.pos + 1 } := by
  rw [stepSearchStx, h]
  exact if_neg hb

theorem stepReadLen_end (h : sc.buf.length ≤ sc.stx + 1) : stepReadLen sc = candidateFails sc := by
  rw [stepReadLen, List.getElem?_eq_none h]

theorem stepReadLen_short {b : Byte} (h : sc.buf[sc.stx + 1]? = some b)
    (hl : sc.buf.length < sc.stx + b.toNat + 3) : stepReadLen sc = candidateFails { sc with len := b } := by
  rw [stepReadLen, h]
  exact if_pos hl

theorem stepReadLen_fits {b : Byte} (h : sc.buf[sc.stx + 1]? = some b)
    (hl : sc.stx + b.toNat + 3 ≤ sc.buf.length) : stepReadLen sc = { sc with state := .checkBodyBounds, len := b } := by
  rw [stepReadLen, h]
  exact if_neg (Nat.not_lt.2 hl)

/-- VERIFY_CRC, of a candidate whose checksum bytes are in the buffer (R207). -/
theorem stepVerifyCrc_eq {b0 b1 b2 b3 : Byte} (hlen : 8 ≤ sc.len.toNat)
    (h0 : sc.buf[sc.stx + sc.len.toNat - 2]? = some b0) (h1 : sc.buf[sc.stx + sc.len.toNat - 1]? = some b1)
    (h2 : sc.buf[sc.stx + sc.len.toNat]? = some b2) (h3 : sc.buf[sc.stx + sc.len.toNat + 1]? = some b3) :
    stepVerifyCrc crc cov sc =
      if crc (crcSpan cov sc.buf sc.stx sc.len.toNat) = b3 ++ b2 ++ b1 ++ b0
      then { sc with state := .verifyEtx } else candidateFails sc := by
  simp only [stepVerifyCrc, storedCrc_eq hlen h0 h1 h2 h3, ne_eq, ← BitVec.toNat_eq, ite_not]

end

/-- Settles O39: one lemma per row of the table. -/
theorem scannerFollowsTheTransitionTable : Obligations.ScannerFollowsTheTransitionTable := by
  intro crc cov sc
  refine ⟨fun hs h => ?_, fun hs h => ?_, fun b hs h hb => ?_, fun hs h => ?_, fun b hs h hl => ?_,
    fun b hs h hl => ?_, fun hs h => ?_, fun hs h => ?_, fun b0 b1 b2 b3 hs hl h0 h1 h2 h3 => ?_, fun hs h => ?_,
    fun hs h => ?_, scanStep_of_terminal crc cov⟩
  · rw [scanStep_searchStx hs, stepSearchStx_end h]
  · rw [scanStep_searchStx hs, stepSearchStx_stx h]
  · rw [scanStep_searchStx hs, stepSearchStx_other h hb]
  · rw [scanStep_readLen hs, stepReadLen_end h, candidateFails]
  · rw [scanStep_readLen hs, stepReadLen_short h hl, candidateFails]
  · rw [scanStep_readLen hs, stepReadLen_fits h hl]
  · rw [scanStep_checkBodyBounds hs, stepCheckBodyBounds, minLen, if_pos h, candidateFails]
  · rw [scanStep_checkBodyBounds hs, stepCheckBodyBounds, minLen, if_neg (Nat.not_lt.2 h)]
  · rw [scanStep_verifyCrc hs, stepVerifyCrc_eq hl h0 h1 h2 h3, crcSpan_eq, candidateFails]
  · rw [scanStep_verifyEtx hs, stepVerifyEtx, etxByte, if_pos h, candidateFails]
  · rw [scanStep_verifyEtx hs, stepVerifyEtx, etxByte, if_neg (not_not.2 h)]

/-! ### The Message of the least frame -/

/-- Packing what was unpacked from an ADDR gives it back (R122). -/
@[simp] theorem packAddr_addrTask_addrNode (a : Addr11) : packAddr (addrTask a) (addrNode a) = a := by
  apply BitVec.eq_of_toNat_eq
  rw [packAddr_toNat, addrTask_toNat, addrNode_toNat]
  omega

@[simp] theorem packAddress_unpackAddress (a : Addr11) : packAddress (unpackAddress a) = a :=
  packAddr_addrTask_addrNode a

/-- Packing what was unpacked from an HDR gives it back (R142). -/
@[simp] theorem packHeader_headerFields (h : Hdr32) :
    packHeader (headerSrc h) (headerDst h) (headerMsgId h) = h := by
  apply BitVec.eq_of_toNat_eq
  rw [packHeader_toNat, headerSrc_toNat, headerDst_toNat, headerMsgId_toNat]
  omega

/-- The header word of the fields unpacked from it. -/
theorem headerNumber_unpacked (h : Hdr32) :
    headerNumber (headerMsgId h) (unpackAddress (headerSrc h)) (unpackAddress (headerDst h)) = h.toNat := by
  rw [← headerWord_toNat, headerWord, packAddress_unpackAddress, packAddress_unpackAddress, packHeader_headerFields]

/-- The header word read from four bytes spells them (R55, R209). -/
theorem leBytes_headerAt {B : List Byte} {lo : Nat} (h : lo + 4 ≤ B.length) :
    leBytes 4 (BitVec.ofNat 32 (fromLe (slice B lo (lo + 4)))).toNat = slice B lo (lo + 4) := by
  have hl : (slice B lo (lo + 4)).length = 4 := by rw [slice_length _ _ _ h]; omega
  have hlt := fromLe_lt (slice B lo (lo + 4))
  rw [hl] at hlt
  rw [BitVec.toNat_ofNat, Nat.mod_eq_of_lt (show _ < 2 ^ 32 from hlt)]
  have := leBytes_fromLe (slice B lo (lo + 4))
  rwa [hl] at this

theorem messageAt_payload_length {B : List Byte} {i : Nat} {len : Byte} (h : i + len.toNat + 3 ≤ B.length) :
    (slice B (i + 6) (i + len.toNat - 2)).length = len.toNat - 8 := by
  rw [slice_length _ _ _ (by omega)]
  omega

/-- The Message of the frame at `i` (R209): its header word spells the four bytes behind LEN and its payload is the
bytes behind them. -/
theorem messageAt_spec {B : List Byte} {i : Nat} {len : Byte} (hfit : i + len.toNat + 3 ≤ B.length)
    (hmin : 8 ≤ len.toNat) :
    ∃ (id : MessageId) (src dst : Address) (p : KnownPayload),
      messageAt B i len = fullMessage id src dst p true ∧
      p.val = (B.drop (i + 6)).take (len.toNat - 8) ∧ p.val.length + 8 = len.toNat ∧
      ∀ k, k < 4 → B[i + 2 + k]? = some (BitVec.ofNat 8 (headerNumber id src dst / 256 ^ k)) := by
  have hlen := messageAt_payload_length hfit
  have hmax := len.isLt
  have hcut : i + len.toNat - 2 - (i + 6) = len.toNat - 8 := by omega
  refine ⟨_, _, _, ⟨slice B (i + 6) (i + len.toNat - 2), by rw [hlen, Config.payloadCap]; omega⟩, rfl, ?_, ?_,
    fun k hk => ?_⟩
  · exact congrArg ((B.drop (i + 6)).take ·) hcut
  · rw [hlen, Nat.sub_add_cancel hmin]
  · rw [headerNumber_unpacked, ← leBytes_getElem? 4 _ k hk, show i + 6 = i + 2 + 4 from rfl,
      leBytes_headerAt (by omega), slice_getElem? _ _ _ _ (by omega)]

/-- Settles O37: the input is what draw `free` reads in the operand, and the scan of it gives the Message of the
least frame (`scanMessage_of_least`, `messageAt_spec`) or the invalid one (`scanMessage_of_none`). -/
theorem frameDecReturnsTheLeastFrame : Obligations.FrameDecReturnsTheLeastFrame := by
  intro s bytes
  refine ⟨rfl, resolve s.free bytes, _, _, exec_frameDec bytes s, resolve_length _ _,
    fun i x => resolve_getElem?_some, fun i hframe hleast => ?_, scanMessage_of_none _ _ _⟩
  obtain ⟨len, -, hlen, hfit, hmin, -⟩ := (frameAt_eq_true _ _).1 hframe
  obtain ⟨id, src, dst, p, hm, hp⟩ := messageAt_spec hfit hmin
  exact ⟨id, src, dst, p, len, hlen, (scanMessage_of_least _ _ _ hframe hleast hlen).trans hm, hp⟩

end Sys2Proof.Machine
end

section
/-! What makes a frame no frame: a changed payload byte (44_frame_decoder R218, G2) and a missing end (R219). -/

namespace Sys2Proof.Machine

/-! ### CRC-32/ISO-HDLC -/

/-- The register behind a run of bytes tells apart the registers in front of it. -/
theorem foldl_crcByte_injective (bs : List Byte) : Function.Injective fun r => bs.foldl crcByte r := by
  induction bs with
  | nil => exact fun _ _ h => h
  | cons b bs ih => exact ih.comp (crcByte_left_injective b)

/-- Settles O44: the changed byte gives another register (`crcByte_right_injective`), which no byte behind it makes
equal again (`foldl_crcByte_injective`). -/
theorem checksumDetectsOneChangedByte : Obligations.ChecksumDetectsOneChangedByte := by
  intro xs ys b c hbc h
  rw [crc32IsoHdlc, crc32IsoHdlc, BitVec.xor_left_inj, List.foldl_append, List.foldl_append] at h
  exact hbc (crcByte_right_injective _ (foldl_crcByte_injective ys h))

/-! ### A frame with one payload byte changed -/

section

variable {crc : List Byte → BitVec 32} {cov : Bool} {id : MessageId} {src dst : Address}

/-- A frame with one payload byte changed is laid out like the frame of the changed payload, but carries the checksum
of the old one: the frame under the constant function that answers it. -/
theorem set_frameBytes (p : List Byte) {j : Nat} (b : Byte) (hj : j < p.length) :
    (frameBytes crc cov id src dst p).set (6 + j) b =
      frameBytes (fun _ => crc (spanBytes cov id src dst p)) cov id src dst (p.set j b) := by
  have hbody : (bodyBytes id src dst p).set (4 + j) b = bodyBytes id src dst (p.set j b) := by
    rw [bodyBytes, List.set_append_right _ _ (by rw [leBytes_length]; omega), leBytes_length,
      Nat.add_sub_cancel_left, bodyBytes]
  have hlt : 4 + j < (bodyBytes id src dst p).length := by
    rw [bodyBytes_length]
    omega
  simp only [frameBytes, show 6 + j = 4 + j + 1 + 1 by omega, List.set_cons_succ, List.append_assoc,
    List.set_append_left _ _ hlt, hbody, List.length_set]

/-- The bytes the checksum covers end in the payload, and what stands before it depends on its length alone. -/
theorem spanBytes_eq_append (p : List Byte) :
    spanBytes cov id src dst p = (if cov then [BitVec.ofNat 8 (p.length + 8)] else []) ++
      leBytes 4 (headerWord id src dst).toNat ++ p := by
  cases cov <;> rfl

/-- The bytes the checksum covers, around byte `j` of the payload. -/
theorem spanBytes_split (p : List Byte) {j : Nat} (hj : j < p.length) :
    ∃ xs ys, ∀ b, spanBytes cov id src dst (p.set j b) = xs ++ b :: ys := by
  refine ⟨(if cov then [BitVec.ofNat 8 (p.length + 8)] else []) ++ leBytes 4 (headerWord id src dst).toNat ++
    p.take j, p.drop (j + 1), fun b => ?_⟩
  rw [spanBytes_eq_append, List.length_set, List.set_eq_take_append_cons_drop, if_pos hj,
    ← List.append_assoc]

/-- A checksum that detects one changed byte tells the spans apart. -/
theorem crc_spanBytes_set_ne (hcrc : DetectsOneChangedByte crc) (p : List Byte) {j : Nat} {b : Byte}
    (hj : j < p.length) (hb : p[j]? ≠ some b) :
    crc (spanBytes cov id src dst (p.set j b)) ≠ crc (spanBytes cov id src dst p) := by
  obtain ⟨xs, ys, hspan⟩ := spanBytes_split (cov := cov) (id := id) (src := src) (dst := dst) p hj
  have hold : spanBytes cov id src dst p = xs ++ p[j] :: ys := by
    rw [← hspan, List.set_getElem_self]
  rw [hspan, hold]
  refine hcrc xs ys b p[j] fun h => hb ?_
  rw [List.getElem?_eq_getElem hj, h]

/-- The length byte of a frame at the head of a buffer. -/
theorem frameBytes_getElem?_one (p : List Byte) :
    (frameBytes crc cov id src dst p)[1]? = some (BitVec.ofNat 8 (p.length + 8)) := rfl

/-- R218: under a checksum that detects one changed byte, a frame with one payload byte changed is no frame. -/
theorem frameAt_set_frameBytes (hcrc : DetectsOneChangedByte crc) (p : List Byte) {j : Nat} {b : Byte}
    (hp : p.length ≤ 246) (hj : j < p.length) (hb : p[j]? ≠ some b) :
    frameAt crc cov ((frameBytes crc cov id src dst p).set (6 + j) b) 0 = false := by
  rw [set_frameBytes p b hj, ← Bool.not_eq_true, frameAt_eq_true]
  rintro ⟨len, -, hlen, -, -, hsum, -⟩
  have hlen : len.toNat = (p.set j b).length + 8 := by
    rw [frameBytes_getElem?_one] at hlen
    obtain rfl := Option.some.inj hlen
    exact lenByte_toNat (by rwa [List.length_set])
  rw [hlen, crcSpan_frameBytes, storedCrc, Nat.zero_add, Nat.add_sub_assoc (by decide), slice_frameBytes_crc,
    fromLe_leBytes] at hsum
  exact crc_spanBytes_set_ne hcrc p hj hb
    (BitVec.eq_of_toNat_eq (hsum.trans (Nat.mod_eq_of_lt (BitVec.isLt _))))

/-- R219: a frame cut below its full length is no frame, its length byte reaching past the end. -/
theorem frameAt_take_frameBytes (p : List Byte) {n : Nat} (hp : p.length ≤ 246) (hn : n < p.length + 11) :
    frameAt crc cov ((frameBytes crc cov id src dst p).take n) 0 = false := by
  rw [← Bool.not_eq_true, frameAt_eq_true]
  rintro ⟨len, -, hlen, hfit, -⟩
  have h1 : 1 < n := by
    have := lt_length_of_getElem? hlen
    rw [List.length_take] at this
    omega
  rw [Nat.zero_add, List.getElem?_take_of_lt h1, frameBytes_getElem?_one] at hlen
  obtain rfl := Option.some.inj hlen
  rw [lenByte_toNat hp, List.length_take] at hfit
  omega

end

/-- A buffer with no frame decodes as the invalid Message (R210). -/
theorem responseOf_frameDec_of_none {s : State} {B : List Byte}
    (h : ∀ i, frameAt (checksum s.params.crc) s.params.crcCoversLen B i = false) :
    responseOf (.frameDec (known B)) s = some (.ok (.msg invalidMessage)) := by
  rw [responseOf_frameDec_known, scanMessage_of_none _ _ _ h]

/-- No frame at index 0 and none from index 1 on is no frame at all. -/
theorem frameAt_false_of_zero_of_pos {crc : List Byte → BitVec 32} {cov : Bool} {B : List Byte}
    (h0 : frameAt crc cov B 0 = false) (hpos : ∀ i, 1 ≤ i → frameAt crc cov B i = false) (i : Nat) :
    frameAt crc cov B i = false := by
  cases i with
  | zero => exact h0
  | succ i => exact hpos (i + 1) (Nat.le_add_left 1 i)

/-- Settles O57: `frameAt_set_frameBytes`, of the frame FRAME_ENC gives. -/
theorem changedPayloadByteBreaksTheFrame : Obligations.ChangedPayloadByteBreaksTheFrame := by
  intro crc cov id src dst p valid k f j b hcrc hp hf hj hb
  rw [encodeFrame_fullMessage _ _ _ _ _ _ _ _ hp] at hf
  simp only [Response.ok.injEq, Result.frame.injEq] at hf
  obtain rfl := known_injective hf
  rw [frameBytes_getElem?_payload hj] at hb
  exact frameAt_set_frameBytes hcrc p.val hp hj hb

/-- Settles O45: CRC-32/ISO-HDLC detects the changed byte (`checksumDetectsOneChangedByte`), so index 0 starts no
frame, and with none behind it the scan finds none. -/
theorem changedPayloadByteIsRejected : Obligations.ChangedPayloadByteIsRejected := by
  intro s s' id src dst p valid f j b hiso hp hcrc hcov hf hj hb
  obtain rfl := eq_frameBytes_of_responseOf hp hf
  have hdetects : DetectsOneChangedByte (checksum s.params.crc) := by
    rw [hiso]
    exact checksumDetectsOneChangedByte
  rw [frameBytes_getElem?_payload hj] at hb
  have h0 := frameAt_set_frameBytes (cov := s.params.crcCoversLen) (id := id) (src := src) (dst := dst)
    hdetects p.val hp hj hb
  refine ⟨h0, fun hpos => responseOf_frameDec_of_none fun i => ?_⟩
  rw [hcrc, hcov]
  exact frameAt_false_of_zero_of_pos h0 hpos i

/-- Settles O46: the length byte of a cut frame reaches past its end (`frameAt_take_frameBytes`), and a buffer without
a frame decodes as the invalid Message. -/
theorem truncatedFrameIsRejected : Obligations.TruncatedFrameIsRejected := by
  refine ⟨fun s s' id src dst p valid f n hp hcrc hcov hf hn => ?_, fun s B => responseOf_frameDec_of_none⟩
  obtain rfl := eq_frameBytes_of_responseOf hp hf
  rw [frameBytes_length] at hn
  have h0 := frameAt_take_frameBytes (crc := checksum s.params.crc) (cov := s.params.crcCoversLen) (id := id)
    (src := src) (dst := dst) p.val hp hn
  refine ⟨h0, fun hpos => responseOf_frameDec_of_none fun i => ?_⟩
  rw [hcrc, hcov]
  exact frameAt_false_of_zero_of_pos h0 hpos i

end Sys2Proof.Machine
end

section
/-! The operation select (30_encoding R100, R102) and the step (10_state R22, 20_memory R63). -/

namespace Sys2Proof

/-! ### The decoder and the encoder -/

@[simp] theorem scalarTypeOfCode_codeOfScalarType (t : ScalarType) : scalarTypeOfCode (codeOfScalarType t) = t := by
  cases t <;> rfl

/-- An operation stands at its own unit and function: `decodeUnit` gives none whose OP is another (R100). -/
theorem opSelect_of_decodeUnit {p : Operands} {u f : Nat} {i : Instr} (h : decodeUnit p u f = some i) :
    (opSelect i).toNat = 16 * u + f := by
  unfold decodeUnit at h
  split at h
  case h_1 => unfold decodeAddress at h; split at h <;> cases h <;> rfl
  case h_2 => unfold decodeHeader at h; split at h <;> cases h <;> rfl
  case h_3 => unfold decodeScalar at h; split at h <;> cases h <;> rfl
  case h_4 => unfold decodeTyped at h; split at h <;> cases h <;> rfl
  case h_5 => unfold decodeFrameUnit at h; split at h <;> cases h <;> rfl
  case h_6 => unfold decodeEntity at h; split at h <;> cases h <;> rfl
  case h_7 => cases h

theorem opUnit_toNat (op : BitVec 8) : (opUnit op).toNat = op.toNat / 16 := by
  have := op.isLt
  rw [opUnit, BitVec.extractLsb'_toNat, Nat.shiftRight_eq_div_pow]
  omega

theorem opFunction_toNat (op : BitVec 8) : (opFunction op).toNat = op.toNat % 16 := by
  simp [opFunction, BitVec.extractLsb'_toNat]

theorem decode_of_decodeUnit {r : Request} {i : Instr}
    (h : decodeUnit r.operands (r.op.toNat / 16) (r.op.toNat % 16) = some i) : decode r = .ok i := by
  rw [decode, opUnit_toNat, opFunction_toNat, h]

/-- The operand ports of an operation, read back at its unit and function, give it again. -/
theorem decodeUnit_operandPorts (i : Instr) :
    decodeUnit (operandPorts i) ((opSelect i).toNat / 16) ((opSelect i).toNat % 16) = some i := by
  cases i with
  | addrPack | addrUnpack | taskFromOffset => simp [opSelect, operandPorts, decodeUnit, decodeAddress]
  | hdrPack | hdrUnpack => simp [opSelect, operandPorts, decodeUnit, decodeHeader]
  | wrU8 | wrI8 | wrU16 | wrI16 | wrU32 | wrI32 | wrU64 | wrI64 =>
    simp [opSelect, operandPorts, decodeUnit, decodeScalar]
  | rdU8 | rdI8 | rdU16 | rdI16 | rdU32 | rdI32 | rdU64 | rdI64 =>
    simp [opSelect, operandPorts, decodeUnit, decodeScalar]
  | msgEncode id fs => simp [opSelect, operandPorts, decodeUnit, decodeTyped, Function.comp_def]
  | msgDecode m ts => simp [opSelect, operandPorts, decodeUnit, decodeTyped, Function.comp_def]
  | frameEnc | frameDec => simp [opSelect, operandPorts, decodeUnit, decodeFrameUnit]
  | msgNew | msgSetSrc | msgSetDst | msgGetPayload | msgSetPayload | msgGetLength | msgEq =>
    simp [opSelect, operandPorts, decodeUnit, decodeEntity]

/-- A request is decoded to an operation with its OP, or its OP is reserved. -/
theorem decode_cases (r : Request) :
    (∃ i, decode r = .ok i ∧ opSelect i = r.op) ∨ decode r = .error (.reservedOp r.op) := by
  unfold decode
  split
  · next i h =>
    refine .inl ⟨i, rfl, BitVec.eq_of_toNat_eq ?_⟩
    rw [opSelect_of_decodeUnit h, opUnit_toNat, opFunction_toNat]
    omega
  · exact .inr rfl

/-- Settles O4: unit and function select the operation again, whose operands stand on the ports it reads
(`decodeUnit_operandPorts`). -/
theorem decodeInvertsEncode : Obligations.DecodeInvertsEncode :=
  fun i => decode_of_decodeUnit (decodeUnit_operandPorts i)

/-- Settles O5: each code is looked up in the table. -/
theorem selectCodesDecode : Obligations.SelectCodesDecode :=
  ⟨rfl, rfl, rfl, rfl, rfl, rfl, rfl, rfl⟩

end Sys2Proof

namespace Sys2Proof.Machine

/-! ### The step -/

theorem step_of_decode_ok {s : State} {r : Request} {rest : List Request} {i : Instr}
    (hr : s.requests = r :: rest) (hd : decode r = .ok i) : step s = exec i { s with requests := rest } := by
  simp only [step, fetch_cons hr, hd]

theorem step_of_decode_error {s : State} {r : Request} {rest : List Request} {e : DecodeError}
    (hr : s.requests = r :: rest) (hd : decode r = .error e) :
    step s = rejectRequest e { s with requests := rest } := by
  simp only [step, fetch_cons hr, hd]

theorem step_of_nil {s : State} (h : s.requests = []) : step s = .next s := by
  simp only [step, fetch_nil h, idle]

/-- Settles O1: `step_of_decode_ok`. -/
theorem stepServesTheDecodedRequest : Obligations.StepServesTheDecodedRequest :=
  fun _ _ _ _ => step_of_decode_ok

/-- Settles O2: `step_of_nil`. -/
theorem stepWithoutRequestWaits : Obligations.StepWithoutRequestWaits :=
  fun _ => step_of_nil

/-- Settles O3: an OP that decodes is that of an operation (`decode_cases`), and the table lists the OP of each. -/
theorem reservedSelectIsRefused : Obligations.ReservedSelectIsRefused := by
  intro s r rest hr hop
  rcases decode_cases r with ⟨i, -, hi⟩ | hd
  · rw [← hi] at hop
    cases i <;> simp [opSelect] at hop
  · rw [step_of_decode_error hr hd]
    rfl

/-- Every operation answers a next state. -/
theorem exec_total (i : Instr) (s : State) : ∃ t, exec i s = .next t := by
  obtain ⟨r, h | ⟨_, -, h⟩⟩ := exec_cases i s
  · exact ⟨_, h⟩
  · exact ⟨_, h⟩

/-- Settles O6: the block waits, serves the operation (`exec_total`) or refuses the OP. -/
theorem stepNeverStops : Obligations.StepNeverStops := by
  intro s
  cases hr : s.requests with
  | nil => exact ⟨s, step_of_nil hr⟩
  | cons r rest =>
    rcases decode_cases r with ⟨i, hd, -⟩ | hd
    · rw [step_of_decode_ok hr hd]
      exact exec_total i _
    · rw [step_of_decode_error hr hd]
      exact ⟨_, rfl⟩

/-- Settles O7: `applyReset` puts the scanner registers and the last response to their reset values and touches
nothing else. -/
theorem resetLeavesNoScanAndNoResponse : Obligations.ResetLeavesNoScanAndNoResponse :=
  ⟨⟨rfl, rfl, rfl, rfl⟩, fun _ => ⟨rfl, rfl, rfl, rfl, rfl, rfl⟩⟩

/-- Settles O55: the four rows of `statusCode`. -/
theorem statusCodesAreTheTable : Obligations.StatusCodesAreTheTable :=
  ⟨fun _ => rfl, rfl, rfl, rfl⟩

/-- Settles O10: of the state every meaning reads the parameters and the draw number alone, so in states that agree on
the two each operation answers the same. -/
theorem responseIgnoresHistory : Obligations.ResponseIgnoresHistory := by
  rintro i ⟨params, scanner, lastResponse, requests, free⟩ ⟨_, scanner', lastResponse', requests', _⟩ rfl rfl
  cases i <;> rfl

end Sys2Proof.Machine
end

section
/-! The Address Codec and the Header Codec invert themselves, and TASK_FROM_OFFSET (40_address_codec R122, R124,
41_header_codec R142). -/

namespace Sys2Proof.Machine

theorem responseOf_addrPack (task : TaskId) (node : NodeId) (s : State) :
    responseOf (.addrPack task node) s = some (.ok (.addr (packAddr task node))) :=
  responseOf_of_complete (exec_addrPack task node s)

theorem responseOf_addrUnpack (a : Addr11) (s : State) :
    responseOf (.addrUnpack a) s = some (.ok (.taskNode (addrTask a) (addrNode a))) :=
  responseOf_of_complete (exec_addrUnpack a s)

theorem responseOf_hdrPack (src dst : Addr11) (id : MessageId) (s : State) :
    responseOf (.hdrPack src dst id) s = some (.ok (.hdr (packHeader src dst id))) :=
  responseOf_of_complete (exec_hdrPack src dst id s)

theorem responseOf_hdrUnpack (h : Hdr32) (s : State) :
    responseOf (.hdrUnpack h) s = some (.ok (.header (headerSrc h) (headerDst h) (headerMsgId h))) :=
  responseOf_of_complete (exec_hdrUnpack h s)

/-- The fields unpacked from an ADDR are those it was packed from (R122). -/
theorem addr_packAddr (task : TaskId) (node : NodeId) :
    addrTask (packAddr task node) = task ∧ addrNode (packAddr task node) = node :=
  Address.mk.inj (unpackAddress_packAddress ⟨task, node⟩)

/-- Settles O16: `addr_packAddr` one way, `packAddr_addrTask_addrNode` the other. -/
theorem addressCodecIsBijection : Obligations.AddressCodecIsBijection := by
  constructor
  · intro s s' task node
    obtain ⟨htask, hnode⟩ := addr_packAddr task node
    refine ⟨_, responseOf_addrPack task node s, ?_⟩
    rw [responseOf_addrUnpack, htask, hnode]
  · intro s s' a
    refine ⟨_, _, responseOf_addrUnpack a s, ?_⟩
    rw [responseOf_addrPack, packAddr_addrTask_addrNode]

/-- Settles O20: `header_packHeader` one way, `packHeader_headerFields` the other. -/
theorem headerCodecIsBijection : Obligations.HeaderCodecIsBijection := by
  constructor
  · intro s s' src dst id
    obtain ⟨hsrc, hdst, hid⟩ := header_packHeader src dst id
    refine ⟨_, responseOf_hdrPack src dst id s, ?_⟩
    rw [responseOf_hdrUnpack, hsrc, hdst, hid]
  · intro s s' h
    refine ⟨_, _, _, responseOf_hdrUnpack h s, ?_⟩
    rw [responseOf_hdrPack, packHeader_headerFields]

theorem exec_taskFromOffset (n : BitVec 5) (s : State) :
    exec (.taskFromOffset n) s = complete (taskFromOffset s.params n) s := rfl

theorem taskFromOffset_refused {p : Params} {n : BitVec 5}
    (h : 32 ≤ p.taskOffsetBase.val + n.toNat ∨ p.taskOffsetBase.val + n.toNat = p.taskBroadcast.toNat) :
    taskFromOffset p n = .error .refused :=
  if_pos h

theorem taskFromOffset_ok {p : Params} {n : BitVec 5} (hlt : p.taskOffsetBase.val + n.toNat < 32)
    (hne : p.taskOffsetBase.val + n.toNat ≠ p.taskBroadcast.toNat) :
    taskFromOffset p n = .ok (.task (BitVec.ofNat 5 (p.taskOffsetBase.val + n.toNat))) :=
  if_neg (not_or.2 ⟨Nat.not_le.2 hlt, hne⟩)

/-- Settles O17: a sum below 32 is the value of the TASK answered; of any other, and of TASK_BROADCAST, the condition of
the refusal holds. -/
theorem taskFromOffsetAddsOrRefuses : Obligations.TaskFromOffsetAddsOrRefuses := by
  intro s n
  refine ⟨rfl, fun hlt hne => ⟨BitVec.ofNat 5 (s.params.taskOffsetBase.val + n.toNat), ?_, ?_⟩,
    fun h => ?_⟩
  · rw [BitVec.toNat_ofNat, Nat.mod_eq_of_lt hlt]
  · rw [exec_taskFromOffset, taskFromOffset_ok hlt hne, complete_eq, State.respond]
  · rw [exec_taskFromOffset, taskFromOffset_refused h, complete_eq, State.respond]

end Sys2Proof.Machine
end

section
/-! The Scalar Field Codec (42_scalar_codec R150 to R168, 20_memory R53, R56). -/

namespace Sys2Proof.Machine

/-! ### What a read finds -/

/-- The bytes an access at `off` reads are those the draw reads in the whole buffer. -/
theorem resolveFrom_slice (k : Nat) (buf : Buffer) (lo hi : Nat) :
    resolveFrom k lo (slice buf lo hi) = slice (resolve k buf) lo hi := by
  rw [slice, ← resolveFrom_take, slice, resolve, resolveFrom_drop, Nat.zero_add]

/-- A specified byte of the buffer is read as it is. -/
theorem slice_resolve_getD {k : Nat} {buf : Buffer} {off n i : Nat} {x : Byte} (hi : i < n)
    (h : buf[off + i]? = some (some x)) : (slice (resolve k buf) off (off + n)).getD i 0#8 = x := by
  rw [List.getD_eq_getElem?_getD, slice_getElem? _ _ _ _ (by omega), resolve_getElem?_some h, Option.getD_some]

/-- The value a read gives, by the bytes it finds (R160 to R167): it is of the type and congruent to their sum, and a
specified byte is found as it is. -/
theorem scalarValue_slice_resolve (k : Nat) (t : ScalarType) {buf : Buffer} {off : Nat}
    (h : off + scalarWidth t ≤ buf.length) :
    ∃ b : Nat → Byte, (∀ i x, i < scalarWidth t → buf[off + i]? = some (some x) → b i = x) ∧
      scalarMin t ≤ scalarValue t (slice (resolve k buf) off (off + scalarWidth t)) ∧
      scalarValue t (slice (resolve k buf) off (off + scalarWidth t)) ≤ scalarMax t ∧
      scalarValue t (slice (resolve k buf) off (off + scalarWidth t)) % (256 ^ scalarWidth t : Int) =
        (weightedSum b (scalarWidth t) : Int) := by
  have hl : (slice (resolve k buf) off (off + scalarWidth t)).length = scalarWidth t := by
    rw [slice_length _ _ _ (by rwa [resolve_length]), Nat.add_sub_cancel_left]
  obtain ⟨hmin, hmax⟩ := scalarValue_inRange t _ hl
  refine ⟨fun i => (slice (resolve k buf) off (off + scalarWidth t)).getD i 0#8,
    fun i x hi => slice_resolve_getD hi, hmin, hmax, ?_⟩
  rw [scalarValue_emod t _ hl, fromLe_eq_weightedSum, hl]

theorem responseOf_readInstr_ok {t : ScalarType} {buf : Buffer} {off : Nat} (s : State)
    (h : off + scalarWidth t ≤ buf.length) :
    responseOf (readInstr t buf off) s =
      some (.ok (.value (scalarValue t (slice (resolve s.free buf) off (off + scalarWidth t)))
        (off + scalarWidth t))) := by
  rw [responseOf_readInstr, readScalar_ok t buf off s.free h, resolveFrom_slice]

theorem responseOf_writeInstr_ok {t : ScalarType} {buf : Buffer} {off : Nat} {v : Int} (s : State)
    (hmin : scalarMin t ≤ v) (hmax : v ≤ scalarMax t) (h : off + scalarWidth t ≤ buf.length) :
    responseOf (writeInstr t buf off v) s =
      some (.ok (.written (memWrite buf off (known (scalarBytes t v))) (off + scalarWidth t))) := by
  rw [responseOf_writeInstr, writeScalar_ok t buf off v ((scalarInRange_iff t v).2 ⟨hmin, hmax⟩) h]

/-- Settles O21: the buffer answered is `memWrite`, inside which the value's bytes stand (`scalarBytes_getElem?`) and
outside which the operand's. -/
theorem writeStoresLeastSignificantFirst : Obligations.WriteStoresLeastSignificantFirst := by
  intro s t buf off v hmin hmax hfit
  have hlen : (known (scalarBytes t v)).length = scalarWidth t := by simp
  have hfit' : off + (known (scalarBytes t v)).length ≤ buf.length := by rwa [hlen]
  refine ⟨memWrite buf off (known (scalarBytes t v)), ?_, memWrite_length _ _ _ hfit', fun i hi => ?_, fun j hj => ?_⟩
  · rw [exec_writeInstr, writeScalar_ok t buf off v ((scalarInRange_iff t v).2 ⟨hmin, hmax⟩) hfit, complete_eq,
      State.respond]
  · rw [memWrite_getElem?_inside _ _ _ _ hfit' (by rwa [hlen]), known_getElem?, scalarBytes_getElem? t v i hi,
      Option.map_some]
  · exact memWrite_getElem?_outside _ _ _ _ hfit' (by rwa [hlen])

/-- Settles O22: the value answered is the one of the bytes found (`scalarValue_slice_resolve`). -/
theorem readGivesTheValueOfTheBytes : Obligations.ReadGivesTheValueOfTheBytes := by
  intro s t buf off hfit
  obtain ⟨b, hb⟩ := scalarValue_slice_resolve s.free t hfit
  refine ⟨_, b, ?_, hb⟩
  rw [exec_readInstr, readScalar_ok t buf off s.free hfit, resolveFrom_slice, complete_eq, State.respond]

/-- Settles O23: the range check fails in both accesses. -/
theorem accessOutsideBufferIsBufferRange : Obligations.AccessOutsideBufferIsBufferRange := by
  intro s t buf off v hout
  refine ⟨?_, fun hmin hmax => ?_⟩
  · rw [exec_readInstr, readScalar_bufferRange t buf off s.free hout, complete_eq, State.respond]
  · rw [exec_writeInstr, writeScalar_bufferRange t buf off v ((scalarInRange_iff t v).2 ⟨hmin, hmax⟩) hout, complete_eq,
      State.respond]

/-- Settles O24: the type's range is looked at before the buffer's. -/
theorem valueOutsideTypeIsRefused : Obligations.ValueOutsideTypeIsRefused := by
  intro s t buf off v hv
  rw [exec_writeInstr, writeScalar_refused t buf off v ((scalarInRange_eq_false_iff t v).2 hv), complete_eq,
    State.respond]

/-- Settles O25: the eight rows of either direction. -/
theorem scalarSelectHoldsDirectionAndType : Obligations.ScalarSelectHoldsDirectionAndType := by
  intro t buf off v
  cases t <;> exact ⟨rfl, rfl, rfl, by decide⟩

/-! ### Reading what was written -/

/-- A slice of a written buffer inside what was written. -/
theorem slice_memWrite_inside {buf : Buffer} {off : Nat} {S : Buffer} (lo hi : Nat)
    (h : off + S.length ≤ buf.length) (hhi : hi ≤ S.length) :
    slice (memWrite buf off S) (off + lo) (off + hi) = slice S lo hi := by
  have hl : (buf.take off).length = off := by
    rw [List.length_take]
    omega
  have := slice_append_right (buf.take off) (S ++ buf.drop (off + S.length)) lo hi
  rw [hl] at this
  rw [memWrite, List.append_assoc, this, slice_append_left _ _ _ _ hhi]

/-- A read inside known bytes that were written finds them. -/
theorem slice_resolve_memWrite_known {k : Nat} {buf : Buffer} {off : Nat} {bs : List Byte} (lo hi : Nat)
    (h : off + bs.length ≤ buf.length) (hhi : hi ≤ bs.length) :
    slice (resolve k (memWrite buf off (known bs))) (off + lo) (off + hi) = slice bs lo hi := by
  have hknown : slice (known bs) lo hi = known (slice bs lo hi) := by simp [slice, known]
  rw [← resolveFrom_slice, slice_memWrite_inside lo hi (by rwa [known_length]) (by rwa [known_length]), hknown,
    resolveFrom_known]

/-- A value's bytes read back where they were written spell the value (R168). -/
theorem scalarValue_memWrite {t : ScalarType} {v : Int} (k : Nat) {buf : Buffer} {off : Nat} (hmin : scalarMin t ≤ v)
    (hmax : v ≤ scalarMax t) (h : off + scalarWidth t ≤ buf.length) :
    scalarValue t (slice (resolve k (memWrite buf off (known (scalarBytes t v)))) off (off + scalarWidth t)) = v := by
  have hread := slice_resolve_memWrite_known (k := k) (bs := scalarBytes t v) 0 (scalarWidth t)
    (by rwa [scalarBytes_length]) (scalarBytes_length t v).ge
  rw [Nat.add_zero] at hread
  rw [hread, slice, List.drop_zero, Nat.sub_zero, List.take_of_length_le (scalarBytes_length t v).le,
    scalarValue_scalarBytes t v ((scalarInRange_iff t v).2 ⟨hmin, hmax⟩)]

theorem memWrite_scalar_length {buf : Buffer} {off : Nat} {t : ScalarType} (v : Int)
    (h : off + scalarWidth t ≤ buf.length) : (memWrite buf off (known (scalarBytes t v))).length = buf.length :=
  memWrite_length _ _ _ (by rwa [known_length, scalarBytes_length])

/-- Settles O26: the bytes read are the bytes written (`scalarValue_memWrite`). -/
theorem readAfterWriteGivesTheValue : Obligations.ReadAfterWriteGivesTheValue := by
  intro s s' t buf off v hmin hmax hfit
  refine ⟨_, responseOf_writeInstr_ok s hmin hmax hfit, ?_⟩
  rw [responseOf_readInstr_ok s' (by rwa [memWrite_scalar_length v hfit]), scalarValue_memWrite _ hmin hmax hfit]

/-- Some of the bytes of a number, least significant first, are the bytes of the number shifted (R53). -/
theorem slice_leBytes {n lo hi : Nat} (u : Nat) (h : hi ≤ n) :
    slice (leBytes n u) lo hi = leBytes (hi - lo) (u / 256 ^ lo) := by
  apply List.ext_getElem?
  intro i
  by_cases hi' : i < hi - lo
  · rw [slice_getElem? _ _ _ _ hi', leBytes_getElem? _ _ _ (by omega), leBytes_getElem? _ _ _ hi',
      Nat.div_div_eq_div_mul, ← pow_add]
  · rw [List.getElem?_eq_none, List.getElem?_eq_none]
    · rw [leBytes_length]
      omega
    · exact (slice_length_le _ _ _).trans (Nat.le_of_not_lt hi')

/-- The bytes of an unsigned value of four bytes. -/
theorem scalarBytes_u32 (u : BitVec 32) : scalarBytes .u32 u.toNat = leBytes 4 u.toNat := by
  have hu := u.isLt
  have hp : bitPattern 4 u.toNat = u.toNat := by
    rw [bitPattern]
    omega
  rw [scalarBytes, scalarWidth, hp]

/-- A narrower unsigned read inside a written 4-byte value sees the bits it covers (R56). -/
theorem responseOf_narrow_read {t : ScalarType} (ht : scalarSigned t = false) (s : State) {buf : Buffer} {off lo : Nat}
    (u : BitVec 32) (hfit : off + 4 ≤ buf.length) (hlo : lo + scalarWidth t ≤ 4) :
    responseOf (readInstr t (memWrite buf off (known (leBytes 4 u.toNat))) (off + lo)) s =
      some (.ok (.value ((u.extractLsb' (8 * lo) (8 * scalarWidth t)).toNat : Int) (off + lo + scalarWidth t))) := by
  have hlen : (memWrite buf off (known (leBytes 4 u.toNat))).length = buf.length :=
    memWrite_length _ _ _ (by rwa [known_length, leBytes_length])
  rw [responseOf_readInstr_ok s (by omega), Nat.add_assoc, slice_resolve_memWrite_known lo (lo + scalarWidth t)
      (by rwa [leBytes_length]) (by rwa [leBytes_length]), slice_leBytes _ hlo, Nat.add_sub_cancel_left,
    scalarValue, ht, if_neg Bool.false_ne_true, fromLe_leBytes, BitVec.extractLsb'_toNat, Nat.shiftRight_eq_div_pow, pow_mul, pow_mul]
  rfl

/-- Settles O27: `responseOf_narrow_read` at one byte and at the upper two. -/
theorem narrowReadSeesPartOfWideWrite : Obligations.NarrowReadSeesPartOfWideWrite := by
  intro s s' buf off u hfit
  have hu := u.isLt
  refine ⟨memWrite buf off (known (leBytes 4 u.toNat)), ?_, fun i hi => ?_, ?_⟩
  · rw [← scalarBytes_u32]
    exact responseOf_writeInstr_ok (t := .u32) s (Int.natCast_nonneg _) (by rw [scalarMax]; omega) hfit
  · exact responseOf_narrow_read (t := .u8) rfl s' u hfit hi
  · exact responseOf_narrow_read (t := .u16) rfl s' u hfit le_rfl

end Sys2Proof.Machine
end

section
/-! The generic entry points (42_scalar_codec R170 to R174): MSG_ENCODE is MSG_NEW with a run of writes, MSG_DECODE a
run of reads. -/

namespace Sys2Proof.Machine

/-! ### Widths -/

theorem sum_widths_eq_totalWidth (fs : List (ScalarType × Int)) :
    (fs.map fun f => scalarWidth f.1).sum = totalWidth (fs.map (·.1)) := by
  rw [totalWidth_eq_sum, List.map_map]
  rfl

theorem totalWidth_append (ts us : List ScalarType) : totalWidth (ts ++ us) = totalWidth ts + totalWidth us := by
  simp [totalWidth_eq_sum]

/-! ### Values from bytes, bytes from values -/

theorem fieldValues_length (ts : List ScalarType) (bs : List Byte) : (fieldValues ts bs).length = ts.length := by
  induction ts generalizing bs with
  | nil => rfl
  | cons t ts ih => simp [fieldValues, ih]

/-- The value behind some types is read behind their widths (R172). -/
theorem fieldValues_getElem?_append (pre : List ScalarType) (t : ScalarType) (post : List ScalarType)
    (bs : List Byte) :
    (fieldValues (pre ++ t :: post) bs)[pre.length]? =
      some (scalarValue t (slice bs (totalWidth pre) (totalWidth pre + scalarWidth t))) := by
  induction pre generalizing bs with
  | nil => simp [fieldValues, slice, totalWidth]
  | cons u pre ih =>
    simp only [List.cons_append, fieldValues, List.length_cons, List.getElem?_cons_succ, ih, totalWidth, slice,
      List.drop_drop, Nat.add_sub_cancel_left]

theorem fieldBytes_append (fs gs : List (ScalarType × Int)) :
    fieldBytes (fs ++ gs) = fieldBytes fs ++ fieldBytes gs := by
  induction fs with
  | nil => rfl
  | cons f fs ih => simp [fieldBytes, ih]

/-- The bytes of a field stand behind those of the fields before it (R170). -/
theorem fieldBytes_getElem? (pre : List (ScalarType × Int)) (f : ScalarType × Int) (post : List (ScalarType × Int))
    {i : Nat} (hi : i < scalarWidth f.1) :
    (fieldBytes (pre ++ f :: post))[totalWidth (pre.map (·.1)) + i]? = some (BitVec.ofInt 8 (f.2 / 256 ^ i)) := by
  rw [fieldBytes_append, ← fieldBytes_length, List.getElem?_append_right (Nat.le_add_right _ _),
    Nat.add_sub_cancel_left, fieldBytes, List.getElem?_append_left (by rwa [scalarBytes_length]), scalarBytes_getElem? _ _ _ hi]

/-- R174's arithmetic: the values survive their bytes. -/
theorem fieldValues_fieldBytes {fs : List (ScalarType × Int)} (h : fieldsInRange fs = true) :
    fieldValues (fs.map (·.1)) (fieldBytes fs) = fs.map (·.2) := by
  induction fs with
  | nil => rfl
  | cons f fs ih =>
    rw [fieldsInRange, Bool.and_eq_true] at h
    obtain ⟨hf, hfs⟩ := h
    rw [List.map_cons, fieldBytes, fieldValues, List.take_left' (scalarBytes_length _ _),
      List.drop_left' (scalarBytes_length _ _), scalarValue_scalarBytes _ _ hf, ih hfs, List.map_cons]

/-! ### MSG_ENCODE -/

theorem exec_msgEncode (id : MessageId) (fs : List (ScalarType × Int)) (s : State) :
    exec (.msgEncode id fs) s = complete (msgEncode id fs) s := rfl

/-- The payload MSG_ENCODE gives a Message (R170). -/
def encodedPayload (fs : List (ScalarType × Int)) (h : totalWidth (fs.map (·.1)) ≤ 247) : Payload :=
  ⟨known (fieldBytes fs), by rwa [known_length, fieldBytes_length]⟩

@[simp] theorem encodedPayload_val {fs : List (ScalarType × Int)} (h : totalWidth (fs.map (·.1)) ≤ 247) :
    (encodedPayload fs h).val = known (fieldBytes fs) := rfl

theorem msgEncode_ok (id : MessageId) {fs : List (ScalarType × Int)} (hfs : fieldsInRange fs = true)
    (h : totalWidth (fs.map (·.1)) ≤ 247) :
    msgEncode id fs = .ok (.msg { msgId := some id, src := none, dst := none, payload := some (encodedPayload fs h),
                                  valid := true }) := by
  rw [msgEncode, hfs, if_neg Bool.noConfusion]
  exact dif_pos h

theorem msgEncode_refused (id : MessageId) {fs : List (ScalarType × Int)}
    (h : fieldsInRange fs = false ∨ 247 < totalWidth (fs.map (·.1))) :
    msgEncode id fs = .error .refused := by
  rw [msgEncode]
  rcases h with h | h
  · rw [if_pos h, raise]
  · rw [dif_neg (show ¬_ ≤ Config.payloadCap from Nat.not_le.2 h), ite_self, raise]

/-- Settles O28: the payload is `fieldBytes`, field by field (`fieldBytes_getElem?`); the two refusals are those of
`msgEncode_refused`. -/
theorem msgEncodeConcatenatesFields : Obligations.MsgEncodeConcatenatesFields := by
  intro s id fs
  refine ⟨rfl, fun hfs hsum => ?_, fun hbad => ?_⟩
  · rw [sum_widths_eq_totalWidth] at hsum ⊢
    refine ⟨_, encodedPayload fs hsum, ?_, rfl, ?_, fun pre f post hsplit i hi => ?_⟩
    · rw [exec_msgEncode, msgEncode_ok id ((fieldsInRange_iff fs).2 hfs) hsum, complete_eq, State.respond]
    · rw [encodedPayload_val, known_length, fieldBytes_length]
    · rw [encodedPayload_val, known_getElem?, sum_widths_eq_totalWidth, hsplit, fieldBytes_getElem? pre f post hi,
        Option.map_some]
  · rw [exec_msgEncode, msgEncode_refused id, complete_eq, State.respond]
    rcases hbad with hsum | ⟨f, hf, hv⟩
    · rw [sum_widths_eq_totalWidth] at hsum
      exact .inr hsum
    · refine .inl (Bool.eq_false_iff.2 fun h => ?_)
      have := (fieldsInRange_iff fs).1 h f hf
      omega

/-! ### MSG_ENCODE as a run of writes -/

theorem memWrite_nil (buf : Buffer) (off : Nat) : memWrite buf off [] = buf := by
  simp [memWrite]

/-- A write over a whole buffer leaves nothing of it. -/
theorem memWrite_all {buf S : Buffer} (h : S.length = buf.length) : memWrite buf 0 S = S := by
  simp [memWrite, h]

/-- Two writes one behind the other are one write. -/
theorem memWrite_memWrite {buf : Buffer} {off : Nat} (S T : Buffer) (h : off + S.length ≤ buf.length) :
    memWrite (memWrite buf off S) (off + S.length) T = memWrite buf off (S ++ T) := by
  have hpre : (buf.take off ++ S).length = off + S.length := by
    rw [List.length_append, List.length_take]
    omega
  have hdrop : (memWrite buf off S).drop (off + S.length + T.length) = buf.drop (off + (S ++ T).length) := by
    rw [memWrite, ← List.drop_drop, ← hpre, List.drop_left, hpre, List.drop_drop, List.length_append, Nat.add_assoc]
  rw [memWrite, hdrop, memWrite, ← hpre, List.take_left, memWrite, List.append_assoc (buf.take off)]

/-- The writes of R171 put the fields' bytes in order. -/
theorem writeAll_eq_memWrite (s : State) {fs : List (ScalarType × Int)}
    (hfs : ∀ f ∈ fs, scalarMin f.1 ≤ f.2 ∧ f.2 ≤ scalarMax f.1) {buf : Buffer} {off : Nat}
    (h : off + totalWidth (fs.map (·.1)) ≤ buf.length) :
    writeAll s buf off fs = some (memWrite buf off (known (fieldBytes fs))) := by
  induction fs generalizing buf off with
  | nil => exact congrArg some (memWrite_nil buf off).symm
  | cons f fs ih =>
    obtain ⟨hf, hfs⟩ := List.forall_mem_cons.1 hfs
    rw [List.map_cons, totalWidth] at h
    have hfit : off + scalarWidth f.1 ≤ buf.length := by omega
    have hlen : (known (scalarBytes f.1 f.2)).length = scalarWidth f.1 := by simp
    have hjoin := memWrite_memWrite (buf := buf) (off := off) (known (scalarBytes f.1 f.2)) (known (fieldBytes fs))
      (by rwa [hlen])
    rw [hlen] at hjoin
    rw [writeAll, responseOf_writeInstr_ok s hf.1 hf.2 hfit]
    simp only
    rw [ih hfs (by rw [memWrite_scalar_length _ hfit]; omega), hjoin, fieldBytes, known_append]

theorem exec_msgNew (id : MessageId) (n : Nat) (s : State) : exec (.msgNew id n) s = complete (msgNew id n) s := rfl

/-- The payload of a fresh Message: `n` UNSPECIFIED bytes (R230). -/
def freshPayload (n : Nat) (h : n ≤ 247) : Payload :=
  ⟨List.replicate n none, by rwa [List.length_replicate]⟩

theorem msgNew_ok (id : MessageId) {n : Nat} (h : n ≤ 247) :
    msgNew id n = .ok (.msg { msgId := some id, src := none, dst := none, payload := some (freshPayload n h),
                              valid := true }) :=
  dif_pos h

theorem msgNew_refused (id : MessageId) {n : Nat} (h : 247 < n) : msgNew id n = .error .refused :=
  dif_neg (Nat.not_le.2 h)

/-- Settles O29: the writes fill the fresh payload with the fields' bytes (`writeAll_eq_memWrite`, `memWrite_all`). -/
theorem msgEncodeIsNewThenWrites : Obligations.MsgEncodeIsNewThenWrites := by
  intro s id fs hfs hsum
  rw [sum_widths_eq_totalWidth] at hsum ⊢
  have hlen : (freshPayload _ hsum).val.length = totalWidth (fs.map (·.1)) := List.length_replicate
  refine ⟨_, freshPayload _ hsum, encodedPayload fs hsum,
    (responseOf_of_complete (exec_msgNew id _ s)).trans (congrArg some (msgNew_ok id hsum)), rfl, ?_, ?_⟩
  · rw [writeAll_eq_memWrite s hfs (by rw [hlen, Nat.zero_add]), memWrite_all, encodedPayload_val]
    rw [hlen, known_length, fieldBytes_length]
  · rw [responseOf_of_complete (exec_msgEncode id fs s), msgEncode_ok id ((fieldsInRange_iff fs).2 hfs) hsum]

/-! ### MSG_DECODE -/

theorem exec_msgDecode (m : Message) (ts : List ScalarType) (s : State) :
    exec (.msgDecode m ts) s = complete (msgDecode m ts s.free) s := rfl

theorem msgDecode_ok {m : Message} {ts : List ScalarType} {k : Nat}
    (h : totalWidth ts ≤ (payloadFor k m).val.length) :
    msgDecode m ts k = .ok (.vals (fieldValues ts (resolve k (payloadFor k m).val))) :=
  if_neg (Nat.not_lt.2 h)

theorem msgDecode_lengthMismatch {m : Message} {ts : List ScalarType} {k : Nat}
    (h : (payloadFor k m).val.length < totalWidth ts) : msgDecode m ts k = .error .lengthMismatch :=
  if_pos h

/-- Settles O30: the value behind the types `pre` is the one of the bytes behind their widths
(`fieldValues_getElem?_append`, `scalarValue_slice_resolve`). -/
theorem msgDecodeReadsFieldsInOrder : Obligations.MsgDecodeReadsFieldsInOrder := by
  intro s m p ts hm
  have hp := payloadFor_of_some (k := s.free) hm
  refine ⟨rfl, fun hsum => ?_, fun hsum => ?_⟩
  · rw [← totalWidth_eq_sum] at hsum
    refine ⟨_, ?_, fieldValues_length ts (resolve s.free p.val), fun pre t post hsplit => ?_⟩
    · rw [exec_msgDecode, msgDecode_ok (by rwa [hp]), hp, complete_eq, State.respond]
    · rw [hsplit, totalWidth_append, totalWidth] at hsum
      obtain ⟨b, hb⟩ := scalarValue_slice_resolve s.free t (buf := p.val) (off := totalWidth pre) (by omega)
      rw [← totalWidth_eq_sum, hsplit]
      exact ⟨_, b, fieldValues_getElem?_append pre t post _, hb⟩
  · rw [← totalWidth_eq_sum] at hsum
    rw [exec_msgDecode, msgDecode_lengthMismatch (by rwa [hp]), complete_eq, State.respond]

/-- The reads of R173 give the values of the bytes from the running offset on. -/
theorem readAll_eq_fieldValues (s : State) {ts : List ScalarType} {buf : Buffer} {off : Nat}
    (h : off + totalWidth ts ≤ buf.length) :
    readAll s buf off ts = some (fieldValues ts ((resolve s.free buf).drop off)) := by
  induction ts generalizing off with
  | nil => rfl
  | cons t ts ih =>
    rw [totalWidth] at h
    rw [readAll, responseOf_readInstr_ok s (by omega)]
    simp only
    rw [ih (by omega), Option.map_some, fieldValues, List.drop_drop, slice, Nat.add_sub_cancel_left]

/-- Settles O31: the reads from offset 0 give MSG_DECODE's values (`readAll_eq_fieldValues`). -/
theorem msgDecodeIsReads : Obligations.MsgDecodeIsReads := by
  intro s m p ts hm hsum
  rw [← totalWidth_eq_sum] at hsum
  have hp := payloadFor_of_some (k := s.free) hm
  refine ⟨_, readAll_eq_fieldValues s (by rwa [Nat.zero_add]), ?_⟩
  rw [responseOf_of_complete (exec_msgDecode m ts s), msgDecode_ok (by rwa [hp]), hp, List.drop_zero]

/-- Settles O32: the payload is the fields' bytes, whose values are the fields' (`fieldValues_fieldBytes`). -/
theorem msgDecodeInvertsMsgEncode : Obligations.MsgDecodeInvertsMsgEncode := by
  intro s s' id fs hfs hsum
  rw [sum_widths_eq_totalWidth] at hsum
  have hrange := (fieldsInRange_iff fs).2 hfs
  refine ⟨_, by rw [responseOf_of_complete (exec_msgEncode id fs s), msgEncode_ok id hrange hsum], ?_⟩
  have hlen : (encodedPayload fs hsum).val.length = totalWidth (fs.map (·.1)) := by
    rw [encodedPayload_val, known_length, fieldBytes_length]
  rw [responseOf_of_complete (exec_msgDecode _ _ s'), msgDecode_ok, payloadFor_of_some rfl, encodedPayload_val,
    resolve_known, fieldValues_fieldBytes hrange]
  rw [payloadFor_of_some rfl, hlen]

end Sys2Proof.Machine
end

section
/-! The frame of any Message (43_frame_encoder R190, 30_encoding R83, U5), of an oversized one (D7) and of the invalid
one (U4). -/

namespace Sys2Proof.Machine

/-! ### The four header bytes -/

/-- Which field bits stand in each header byte (R83). -/
theorem leBytes_headerNumber (id : MessageId) (src dst : Address) :
    leBytes 4 (headerNumber id src dst) =
      [src.node.extractLsb' 0 3 ++ src.task, dst.task ++ src.node.extractLsb' 3 3,
        id.extractLsb' 0 2 ++ dst.node, id.extractLsb' 2 8] := by
  have hst := src.task.isLt
  have hsn := src.node.isLt
  have hdt := dst.task.isLt
  have hdn := dst.node.isLt
  have hid := id.isLt
  simp only [leBytes, headerNumber, List.cons.injEq, and_true]
  refine ⟨?_, ?_, ?_, ?_⟩ <;> apply BitVec.eq_of_toNat_eq <;>
    simp only [BitVec.toNat_ofNat, toNat_append_eq, BitVec.extractLsb'_toNat, Nat.shiftRight_eq_div_pow] <;> omega

/-- Settles O34: bytes 2 to 5 of a frame are the header word's, which `leBytes_headerNumber` reads as fields. -/
theorem frameHeaderBytesHoldTheFields : Obligations.FrameHeaderBytesHoldTheFields := by
  intro s id src dst p valid hp
  have hbyte : ∀ (i : Nat) (b : Byte), (leBytes 4 (headerNumber id src dst))[i]? = some b →
      (known (frameBytes (checksum s.params.crc) s.params.crcCoversLen id src dst p.val))[2 + i]? = some (some b) := by
    intro i b hb
    rw [known_getElem?, frameBytes_getElem?_add_two, headerWord_toNat,
      List.getElem?_append_left (lt_length_of_getElem? hb), hb, Option.map_some]
  rw [leBytes_headerNumber] at hbyte
  exact ⟨_, _, _, _, _, responseOf_frameEnc_fullMessage s id src dst p valid hp, hbyte 0 _ rfl, hbyte 1 _ rfl,
    hbyte 2 _ rfl, hbyte 3 _ rfl, rfl, rfl, rfl, rfl⟩

/-- The header word of a Message reads an unset field as 0. -/
theorem messageHeader_toNat (m : Message) :
    (messageHeader m).toNat = headerNumber (m.msgId.getD 0#10) (m.src.getD ⟨0#5, 0#6⟩) (m.dst.getD ⟨0#5, 0#6⟩) := by
  have hzero : packAddress ⟨0#5, 0#6⟩ = 0#11 := by decide
  rw [← headerWord_toNat, headerWord, messageHeader, ← hzero, Option.getD_map, Option.getD_map]

/-- The header bytes of a frame, each with the fields it depends on (R83, U5). -/
theorem headerCells_eq (m : Message) :
    headerCells m =
      [cellIf m.src.isSome ((m.src.getD ⟨0#5, 0#6⟩).node.extractLsb' 0 3 ++ (m.src.getD ⟨0#5, 0#6⟩).task),
        cellIf (m.src.isSome && m.dst.isSome)
          ((m.dst.getD ⟨0#5, 0#6⟩).task ++ (m.src.getD ⟨0#5, 0#6⟩).node.extractLsb' 3 3),
        cellIf (m.dst.isSome && m.msgId.isSome)
          ((m.msgId.getD 0#10).extractLsb' 0 2 ++ (m.dst.getD ⟨0#5, 0#6⟩).node),
        cellIf m.msgId.isSome ((m.msgId.getD 0#10).extractLsb' 2 8)] := by
  rw [headerCells, messageHeader_toNat, hdrLen, leBytes_headerNumber]
  rfl

theorem headerCells_length (m : Message) : (headerCells m).length = 4 := by
  rw [headerCells_eq]
  rfl

theorem none_mem_headerCells_iff (m : Message) :
    none ∈ headerCells m ↔ m.src = none ∨ m.dst = none ∨ m.msgId = none := by
  rw [headerCells_eq]
  cases m.src <;> cases m.dst <;> cases m.msgId <;> simp [cellIf]

/-! ### Where the parts of a frame stand -/

/-- The cells the checksum covers (R88). -/
def spanCells (cov : Bool) (m : Message) (p : Buffer) : Buffer :=
  if cov then some (BitVec.ofNat 8 (p.length + lenOverhead)) :: (headerCells m ++ p) else headerCells m ++ p

theorem none_mem_spanCells_iff (cov : Bool) (m : Message) (p : Buffer) :
    none ∈ spanCells cov m p ↔ m.src = none ∨ m.dst = none ∨ m.msgId = none ∨ none ∈ p := by
  cases cov <;> simp [spanCells, none_mem_headerCells_iff, or_assoc]

section

variable (crc : List Byte → BitVec 32)

/-- A checksum byte is UNSPECIFIED when a cell it covers is. -/
theorem crcCells_getElem?_of_mem {span : Buffer} (h : none ∈ span) {i : Nat} (hi : i < 4) :
    (crcCells crc span)[i]? = some none := by
  rw [crcCells, allKnown_eq_none.2 h]
  exact List.getElem?_replicate_of_lt hi

/-- A checksum byte is specified when every cell it covers is. -/
theorem crcCells_getElem?_of_not_mem {span : Buffer} (h : none ∉ span) {i : Nat} (hi : i < 4) :
    ∃ b, (crcCells crc span)[i]? = some (some b) := by
  obtain ⟨bs, hbs⟩ := Option.ne_none_iff_exists'.1 (mt allKnown_eq_none.1 h)
  rw [crcCells, hbs]
  refine ⟨BitVec.ofNat 8 ((crc bs).toNat / 256 ^ i), ?_⟩
  rw [known_getElem?, crcLen, leBytes_getElem? _ _ _ hi, Option.map_some]

theorem crcCells_length (span : Buffer) : (crcCells crc span).length = 4 := by
  rw [crcCells]
  split
  · rw [known_length, leBytes_length, crcLen]
  · rw [List.length_replicate, crcLen]

variable (cov : Bool) (m : Message) (p : Buffer)

theorem frameCells_eq : frameCells crc cov m p =
    some stxByte :: some (BitVec.ofNat 8 (p.length + lenOverhead)) ::
      (headerCells m ++ (p ++ (crcCells crc (spanCells cov m p) ++ [some etxByte]))) := by
  simp only [frameCells, spanCells, List.append_assoc]

theorem frameCells_length : (frameCells crc cov m p).length = p.length + 11 := by
  simp only [frameCells_eq, List.length_cons, List.length_append, headerCells_length, crcCells_length, List.length_nil]
  omega

theorem frameCells_getElem?_header {i : Nat} {c : ByteCell} (h : (headerCells m)[i]? = some c) :
    (frameCells crc cov m p)[i + 2]? = some c := by
  rw [frameCells_eq, List.getElem?_cons_succ, List.getElem?_cons_succ,
    List.getElem?_append_left (lt_length_of_getElem? h), h]

/-- Behind the header a frame is the payload, the checksum and ETX. -/
theorem frameCells_getElem?_add_six (j : Nat) :
    (frameCells crc cov m p)[6 + j]? = (p ++ (crcCells crc (spanCells cov m p) ++ [some etxByte]))[j]? := by
  rw [frameCells_eq, show 6 + j = 4 + j + 1 + 1 by omega, List.getElem?_cons_succ, List.getElem?_cons_succ,
    List.getElem?_append_right (by rw [headerCells_length]; omega), headerCells_length, Nat.add_sub_cancel_left]

theorem frameCells_getElem?_payload {i : Nat} (h : i < p.length) : (frameCells crc cov m p)[6 + i]? = p[i]? := by
  rw [frameCells_getElem?_add_six, List.getElem?_append_left h]

/-- Behind the payload a frame is the checksum and ETX. -/
theorem frameCells_getElem?_behind_payload (j : Nat) :
    (frameCells crc cov m p)[6 + p.length + j]? = (crcCells crc (spanCells cov m p) ++ [some etxByte])[j]? := by
  rw [Nat.add_assoc, frameCells_getElem?_add_six, List.getElem?_append_right (Nat.le_add_right _ _),
    Nat.add_sub_cancel_left]

theorem frameCells_getElem?_checksum {i : Nat} (h : i < 4) :
    (frameCells crc cov m p)[6 + p.length + i]? = (crcCells crc (spanCells cov m p))[i]? := by
  rw [frameCells_getElem?_behind_payload, List.getElem?_append_left (by rwa [crcCells_length])]

theorem frameCells_getElem?_etx : (frameCells crc cov m p)[10 + p.length]? = some (some etxByte) := by
  rw [show 10 + p.length = 6 + p.length + 4 by omega, frameCells_getElem?_behind_payload,
    List.getElem?_append_right (by rw [crcCells_length]), crcCells_length]
  rfl

end

/-! ### FRAME_ENC -/

/-- Settles O35: the first condition of `encodeFrame_of_some`. -/
theorem frameEncRefusesOversizedPayload : Obligations.FrameEncRefusesOversizedPayload := by
  intro s m p hm hp
  rw [exec_frameEnc, encodeFrame_of_some hm, if_pos hp, complete_eq, State.respond]

/-- Settles O36: `headerCells_eq` says of each header byte which fields it holds bits of, and a checksum byte is
specified when all it covers is (`none_mem_spanCells_iff`). -/
theorem frameOfUnsetAddressesIsPartlyUnspecified : Obligations.FrameOfUnsetAddressesIsPartlyUnspecified := by
  intro s m p hm hp
  have hheader : ∀ (i : Nat) (c : ByteCell), (headerCells m)[i]? = some c →
      (frameCells (checksum s.params.crc) s.params.crcCoversLen m p.val)[i + 2]? = some c :=
    fun i c => frameCells_getElem?_header _ _ _ _
  rw [headerCells_eq] at hheader
  refine ⟨frameCells (checksum s.params.crc) s.params.crcCoversLen m p.val, ?_, frameCells_length _ _ _ _, rfl, rfl,
    frameCells_getElem?_etx _ _ _ _, fun i => frameCells_getElem?_payload _ _ _ _, fun hs => ⟨?_, ?_⟩,
    fun hd => ⟨?_, ?_⟩, fun hi => ⟨?_, ?_⟩, fun a hs => ?_, fun a d hs hd => ?_, fun d id hd hi => ?_,
    fun id hi => ?_, fun i hi => ?_⟩
  · rw [exec_frameEnc, encodeFrame_of_some hm, if_neg (Nat.not_lt.2 hp), complete_eq, State.respond]
  · exact hheader 0 _ (by simp [hs, cellIf])
  · exact hheader 1 _ (by simp [hs, cellIf])
  · exact hheader 1 _ (by simp [hd, cellIf])
  · exact hheader 2 _ (by simp [hd, cellIf])
  · exact hheader 2 _ (by simp [hi, cellIf])
  · exact hheader 3 _ (by simp [hi, cellIf])
  · exact hheader 0 _ (by simp [hs, cellIf])
  · exact hheader 1 _ (by simp [hs, hd, cellIf])
  · exact hheader 2 _ (by simp [hd, hi, cellIf])
  · exact hheader 3 _ (by simp [hi, cellIf])
  · rw [frameCells_getElem?_checksum _ _ _ _ hi]
    refine ⟨fun h => crcCells_getElem?_of_mem _ ((none_mem_spanCells_iff _ m p.val).2 h) hi, fun hs hd hid hp => ?_⟩
    refine crcCells_getElem?_of_not_mem _ (fun h => ?_) hi
    rcases (none_mem_spanCells_iff _ m p.val).1 h with h | h | h | h
    · exact hs h
    · exact hd h
    · exact hid h
    · exact hp h

/-! ### The invalid Message -/

/-- The values read for a type list are of their types. -/
theorem fieldValues_inRange {ts : List ScalarType} {bs : List Byte} (h : totalWidth ts ≤ bs.length) {i : Nat}
    {t : ScalarType} {v : Int} (ht : ts[i]? = some t) (hv : (fieldValues ts bs)[i]? = some v) :
    scalarMin t ≤ v ∧ v ≤ scalarMax t := by
  induction ts generalizing bs i with
  | nil => cases ht
  | cons u ts ih =>
    rw [totalWidth] at h
    rw [fieldValues] at hv
    cases i with
    | zero =>
      cases ht
      cases hv
      exact scalarValue_inRange t _ (List.length_take_of_le (by omega))
    | succ i => exact ih (by rw [List.length_drop]; omega) ht hv

/-- Settles O56: FRAME_ENC gives a refusal or a frame of UNSPECIFIED bytes (`encodeFrame_of_none`), MSG_DECODE a
mismatch or values of the types (`fieldValues_inRange`). -/
theorem invalidMessageGivesUnspecifiedFrameAndValues : Obligations.InvalidMessageGivesUnspecifiedFrameAndValues := by
  intro s m ts hm
  refine ⟨⟨_, exec_frameEnc m s, ?_⟩, ⟨_, exec_msgDecode m ts s, ?_⟩⟩
  · rw [encodeFrame_of_none hm]
    split
    · exact .inl rfl
    · exact .inr ⟨_, rfl⟩
  · rcases Nat.lt_or_ge (payloadFor s.free m).val.length (totalWidth ts) with hlt | hge
    · exact .inl (msgDecode_lengthMismatch hlt)
    · exact .inr ⟨_, msgDecode_ok hge, fieldValues_length _ _, fun i t v =>
        fieldValues_inRange (by rwa [resolve_length])⟩

end Sys2Proof.Machine
end

section
/-! The Message entity (45_message_entity R230 to R237). -/

namespace Sys2Proof.Machine

theorem exec_msgSetSrc (m : Message) (a : Address) (s : State) :
    exec (.msgSetSrc m a) s =
      complete (.ok (.msg (updateMessage s.free m fun m => { m with src := some a }))) s := rfl

theorem exec_msgSetDst (m : Message) (a : Address) (s : State) :
    exec (.msgSetDst m a) s =
      complete (.ok (.msg (updateMessage s.free m fun m => { m with dst := some a }))) s := rfl

theorem exec_msgSetPayload (m : Message) (b : Buffer) (s : State) :
    exec (.msgSetPayload m b) s = complete (msgSetPayload m b s.free) s := rfl

theorem msgSetPayload_ok (m : Message) {b : Buffer} (k : Nat) (h : b.length ≤ 247) :
    msgSetPayload m b k = .ok (.msg (updateMessage k m fun m => { m with payload := some ⟨b, h⟩ })) :=
  dif_pos h

theorem msgSetPayload_refused (m : Message) {b : Buffer} (k : Nat) (h : 247 < b.length) :
    msgSetPayload m b k = .error .refused :=
  dif_neg (Nat.not_le.2 h)

/-- Settles O47: the two cases of MSG_NEW (`msgNew_ok`, `msgNew_refused`). -/
theorem msgNewGivesUnspecifiedFields : Obligations.MsgNewGivesUnspecifiedFields := by
  intro s id n
  refine ⟨rfl, fun h => ⟨_, freshPayload n h, ?_, rfl, rfl⟩, fun h => ?_⟩
  · rw [exec_msgNew, msgNew_ok id h, complete_eq, State.respond]
  · rw [exec_msgNew, msgNew_refused id h, complete_eq, State.respond]

/-- Settles O48: the two cases of `updateMessage`. -/
theorem settersReplaceOneAddress : Obligations.SettersReplaceOneAddress := by
  intro s m a
  refine ⟨rfl, rfl, fun h => ⟨?_, ?_⟩, fun h => ⟨Config.freeValid s.free, Config.freeValid s.free, ?_, ?_⟩⟩
  · rw [exec_msgSetSrc, updateMessage_of_some h, complete_eq, State.respond]
  · rw [exec_msgSetDst, updateMessage_of_some h, complete_eq, State.respond]
  · rw [exec_msgSetSrc, updateMessage_of_none h, complete_eq, State.respond, unspecifiedMessage]
  · rw [exec_msgSetDst, updateMessage_of_none h, complete_eq, State.respond, unspecifiedMessage]

/-- Settles O51: the bound decides on the refusal, and below it the two cases of `updateMessage`. -/
theorem msgSetPayloadReplacesThePayload : Obligations.MsgSetPayloadReplacesThePayload := by
  intro s m b
  refine ⟨rfl, fun hb h => ⟨⟨b, hb⟩, rfl, ?_⟩, fun hb h => ⟨Config.freeValid s.free, ?_⟩, fun hb => ?_⟩
  · rw [exec_msgSetPayload, msgSetPayload_ok m s.free hb, updateMessage_of_some h, complete_eq, State.respond]
  · rw [exec_msgSetPayload, msgSetPayload_ok m s.free hb, updateMessage_of_none h, complete_eq, State.respond,
      unspecifiedMessage]
  · rw [exec_msgSetPayload, msgSetPayload_refused m s.free hb, complete_eq, State.respond]

theorem address_eq_iff (a b : Address) : a = b ↔ a.task = b.task ∧ a.node = b.node := by
  cases a
  cases b
  rw [Address.mk.injEq]

/-- Settles O52: EQ compares the four components (`messageEq_fullMessage_iff`), an Address by its two. -/
theorem msgEqComparesFourComponents : Obligations.MsgEqComparesFourComponents := by
  refine ⟨fun s a b => ⟨rfl, _, exec_msgEq a b s⟩, fun s ia ib sa sb da db pa pb va vb => ⟨_, exec_msgEq _ _ s, ?_⟩⟩
  rw [messageEq_fullMessage_iff, address_eq_iff, address_eq_iff, and_assoc, and_assoc]

/-- Settles O54: VALID stands in no meaning of the five, so both responses are the same term. -/
theorem validIsReadByNoOperation : Obligations.ValidIsReadByNoOperation :=
  fun _ _ _ _ _ _ => ⟨rfl, rfl, rfl, rfl, rfl⟩

end Sys2Proof.Machine
end

section
/-! Which operation can give which response: the abnormal outcomes (60_exceptions R256) and VALID of a Message
(10_state R38). -/

namespace Sys2Proof.Machine

/-! ### What each kind of response can be -/

theorem writeScalar_cases (t : ScalarType) (buf : Buffer) (off : Nat) (v : Int) :
    (scalarInRange t v = false ∧ writeScalar t buf off v = .error .refused) ∨
      writeScalar t buf off v = .error .bufferRange ∨
      ∃ out next, writeScalar t buf off v = .ok (.written out next) := by
  cases hv : scalarInRange t v with
  | false => exact .inl ⟨rfl, writeScalar_refused t buf off v hv⟩
  | true =>
    rcases Nat.lt_or_ge buf.length (off + scalarWidth t) with hout | hfit
    · exact .inr (.inl (writeScalar_bufferRange t buf off v hv hout))
    · exact .inr (.inr ⟨_, _, writeScalar_ok t buf off v hv hfit⟩)

theorem readScalar_cases (t : ScalarType) (buf : Buffer) (off k : Nat) :
    readScalar t buf off k = .error .bufferRange ∨ ∃ v next, readScalar t buf off k = .ok (.value v next) := by
  rcases Nat.lt_or_ge buf.length (off + scalarWidth t) with hout | hfit
  · exact .inl (readScalar_bufferRange t buf off k hout)
  · exact .inr ⟨_, _, readScalar_ok t buf off k hfit⟩

theorem taskFromOffset_cases (p : Params) (n : BitVec 5) :
    taskFromOffset p n = .error .refused ∨ ∃ t, taskFromOffset p n = .ok (.task t) := by
  by_cases h : 32 ≤ p.taskOffsetBase.val + n.toNat ∨ p.taskOffsetBase.val + n.toNat = p.taskBroadcast.toNat
  · exact .inl (taskFromOffset_refused h)
  · obtain ⟨hlt, hne⟩ := not_or.1 h
    exact .inr ⟨_, taskFromOffset_ok (Nat.not_le.1 hlt) hne⟩

theorem msgEncode_cases (id : MessageId) (fs : List (ScalarType × Int)) :
    msgEncode id fs = .error .refused ∨ ∃ m : Message, msgEncode id fs = .ok (.msg m) ∧ m.valid = true := by
  cases hfs : fieldsInRange fs with
  | false => exact .inl (msgEncode_refused id (.inl hfs))
  | true =>
    rcases Nat.lt_or_ge 247 (totalWidth (fs.map (·.1))) with hlt | hge
    · exact .inl (msgEncode_refused id (.inr hlt))
    · exact .inr ⟨_, msgEncode_ok id hfs hge, rfl⟩

theorem msgDecode_cases (m : Message) (ts : List ScalarType) (k : Nat) :
    msgDecode m ts k = .error .lengthMismatch ∨ ∃ vs, msgDecode m ts k = .ok (.vals vs) := by
  rcases Nat.lt_or_ge (payloadFor k m).val.length (totalWidth ts) with hlt | hge
  · exact .inl (msgDecode_lengthMismatch hlt)
  · exact .inr ⟨_, msgDecode_ok hge⟩

theorem encodeFrame_cases (crc : List Byte → BitVec 32) (cov : Bool) (m : Message) (k : Nat) :
    encodeFrame crc cov m k = .error .refused ∨ ∃ f, encodeFrame crc cov m k = .ok (.frame f) := by
  cases hp : m.payload with
  | none =>
    rw [encodeFrame_of_none hp]
    split
    · exact .inl rfl
    · exact .inr ⟨_, rfl⟩
  | some p =>
    rw [encodeFrame_of_some hp]
    split
    · exact .inl rfl
    · exact .inr ⟨_, rfl⟩

theorem msgNew_cases (id : MessageId) (n : Nat) :
    msgNew id n = .error .refused ∨ ∃ m : Message, msgNew id n = .ok (.msg m) ∧ m.valid = true := by
  rcases Nat.lt_or_ge 247 n with hlt | hge
  · exact .inl (msgNew_refused id hlt)
  · exact .inr ⟨_, msgNew_ok id hge, rfl⟩

/-- A Message with a payload of its own keeps its VALID when a field is replaced. -/
theorem updateMessage_valid {k : Nat} {m : Message} {f : Message → Message} (hf : (f m).valid = m.valid)
    (h : m.payload ≠ none) : (updateMessage k m f).valid = m.valid := by
  rw [updateMessage_of_some h, hf]

theorem msgSetPayload_cases (m : Message) (b : Buffer) (k : Nat) :
    msgSetPayload m b k = .error .refused ∨
      ∃ m' : Message, msgSetPayload m b k = .ok (.msg m') ∧ (m.payload ≠ none → m'.valid = m.valid) := by
  rcases Nat.lt_or_ge 247 b.length with hlt | hge
  · exact .inl (msgSetPayload_refused m k hlt)
  · exact .inr ⟨_, msgSetPayload_ok m k hge, updateMessage_valid rfl⟩

/-- The operations one by one, the sixteen scalar accesses by their type. -/
theorem forall_instr {P : Instr → Prop} (write : ∀ t buf off v, P (writeInstr t buf off v))
    (read : ∀ t buf off, P (readInstr t buf off)) (addrPack : ∀ task node, P (.addrPack task node))
    (addrUnpack : ∀ a, P (.addrUnpack a)) (taskFromOffset : ∀ n, P (.taskFromOffset n))
    (hdrPack : ∀ src dst id, P (.hdrPack src dst id)) (hdrUnpack : ∀ h, P (.hdrUnpack h))
    (msgEncode : ∀ id fs, P (.msgEncode id fs)) (msgDecode : ∀ m ts, P (.msgDecode m ts))
    (frameEnc : ∀ m, P (.frameEnc m)) (frameDec : ∀ bytes, P (.frameDec bytes)) (msgNew : ∀ id n, P (.msgNew id n))
    (msgSetSrc : ∀ m a, P (.msgSetSrc m a)) (msgSetDst : ∀ m a, P (.msgSetDst m a))
    (msgGetPayload : ∀ m, P (.msgGetPayload m)) (msgSetPayload : ∀ m b, P (.msgSetPayload m b))
    (msgGetLength : ∀ m, P (.msgGetLength m)) (msgEq : ∀ a b, P (.msgEq a b)) : ∀ i, P i
  | .wrU8 b o v => write .u8 b o v
  | .wrI8 b o v => write .i8 b o v
  | .wrU16 b o v => write .u16 b o v
  | .wrI16 b o v => write .i16 b o v
  | .wrU32 b o v => write .u32 b o v
  | .wrI32 b o v => write .i32 b o v
  | .wrU64 b o v => write .u64 b o v
  | .wrI64 b o v => write .i64 b o v
  | .rdU8 b o => read .u8 b o
  | .rdI8 b o => read .i8 b o
  | .rdU16 b o => read .u16 b o
  | .rdI16 b o => read .i16 b o
  | .rdU32 b o => read .u32 b o
  | .rdI32 b o => read .i32 b o
  | .rdU64 b o => read .u64 b o
  | .rdI64 b o => read .i64 b o
  | .addrPack t n => addrPack t n
  | .addrUnpack a => addrUnpack a
  | .taskFromOffset n => taskFromOffset n
  | .hdrPack s d m => hdrPack s d m
  | .hdrUnpack h => hdrUnpack h
  | .msgEncode m fs => msgEncode m fs
  | .msgDecode m ts => msgDecode m ts
  | .frameEnc m => frameEnc m
  | .frameDec bs => frameDec bs
  | .msgNew m n => msgNew m n
  | .msgSetSrc m a => msgSetSrc m a
  | .msgSetDst m a => msgSetDst m a
  | .msgGetPayload m => msgGetPayload m
  | .msgSetPayload m b => msgSetPayload m b
  | .msgGetLength m => msgGetLength m
  | .msgEq a b => msgEq a b

/-! ### The abnormal outcomes -/

/-- The operations that can give an abnormal outcome (R256). -/
def CanAnswer (i : Instr) : ErrorStatus → Prop
  | .lengthMismatch => ∃ m ts, i = .msgDecode m ts
  | .bufferRange => (∃ t buf off v, i = writeInstr t buf off v) ∨ ∃ t buf off, i = readInstr t buf off
  | .refused => (∃ n, i = .taskFromOffset n) ∨ (∃ t buf off v, i = writeInstr t buf off v ∧ i.wf = false) ∨
      (∃ id fs, i = .msgEncode id fs) ∨ (∃ m, i = .frameEnc m) ∨ (∃ id n, i = .msgNew id n) ∨
      ∃ m buf, i = .msgSetPayload m buf

/-- An operation with two ends, one of them a result, gives no abnormal outcome but the other end. -/
theorem canAnswer_of_cases {i : Instr} {s s' : State} {r : Response} {e e' : ErrorStatus}
    (hx : exec i s = complete r s') (hr : r = .error e' ∨ ∃ x, r = .ok x) (hi : CanAnswer i e')
    (h : responseOf i s = some (.error e)) : CanAnswer i e := by
  rw [responseOf_of_complete hx] at h
  rcases hr with rfl | ⟨x, rfl⟩
  · cases h
    exact hi
  · cases h

/-- An operation that always completes with a result gives no abnormal outcome. -/
theorem responseOf_ne_error {i : Instr} {s s' : State} {x : Result} {e : ErrorStatus}
    (hx : exec i s = complete (.ok x) s') : responseOf i s ≠ some (.error e) := by
  rw [responseOf_of_complete hx]
  exact nofun

theorem canAnswer_of_responseOf {i : Instr} {s : State} {e : ErrorStatus}
    (h : responseOf i s = some (.error e)) : CanAnswer i e := by
  induction i using forall_instr with
  | write t buf off v =>
    rw [responseOf_writeInstr] at h
    rcases writeScalar_cases t buf off v with ⟨hv, hw⟩ | hw | ⟨_, _, hw⟩ <;> rw [hw] at h <;> cases h
    · exact .inr (.inl ⟨t, buf, off, v, rfl, (wf_writeInstr t buf off v).trans hv⟩)
    · exact .inl ⟨t, buf, off, v, rfl⟩
  | read t buf off =>
    exact canAnswer_of_cases (exec_readInstr t buf off s)
      ((readScalar_cases t buf off s.free).imp_right fun ⟨_, _, hr⟩ => ⟨_, hr⟩) (.inr ⟨t, buf, off, rfl⟩) h
  | taskFromOffset n =>
    exact canAnswer_of_cases (exec_taskFromOffset n s)
      ((taskFromOffset_cases s.params n).imp_right fun ⟨_, hr⟩ => ⟨_, hr⟩) (.inl ⟨n, rfl⟩) h
  | msgEncode id fs =>
    exact canAnswer_of_cases (exec_msgEncode id fs s) ((msgEncode_cases id fs).imp_right fun ⟨_, hr, _⟩ => ⟨_, hr⟩)
      (.inr (.inr (.inl ⟨id, fs, rfl⟩))) h
  | msgDecode m ts =>
    exact canAnswer_of_cases (exec_msgDecode m ts s)
      ((msgDecode_cases m ts s.free).imp_right fun ⟨_, hr⟩ => ⟨_, hr⟩) ⟨m, ts, rfl⟩ h
  | frameEnc m =>
    exact canAnswer_of_cases (exec_frameEnc m s) ((encodeFrame_cases _ _ m s.free).imp_right fun ⟨_, hr⟩ => ⟨_, hr⟩)
      (.inr (.inr (.inr (.inl ⟨m, rfl⟩)))) h
  | msgNew id n =>
    exact canAnswer_of_cases (exec_msgNew id n s) ((msgNew_cases id n).imp_right fun ⟨_, hr, _⟩ => ⟨_, hr⟩)
      (.inr (.inr (.inr (.inr (.inl ⟨id, n, rfl⟩))))) h
  | msgSetPayload m b =>
    exact canAnswer_of_cases (exec_msgSetPayload m b s)
      ((msgSetPayload_cases m b s.free).imp_right fun ⟨_, hr, _⟩ => ⟨_, hr⟩)
      (.inr (.inr (.inr (.inr (.inr ⟨m, b, rfl⟩))))) h
  | addrPack task node => exact absurd h (responseOf_ne_error (exec_addrPack task node s))
  | addrUnpack a => exact absurd h (responseOf_ne_error (exec_addrUnpack a s))
  | hdrPack src dst id => exact absurd h (responseOf_ne_error (exec_hdrPack src dst id s))
  | hdrUnpack w => exact absurd h (responseOf_ne_error (exec_hdrUnpack w s))
  | frameDec bytes => exact absurd h (responseOf_ne_error (exec_frameDec bytes s))
  | msgSetSrc m a => exact absurd h (responseOf_ne_error (exec_msgSetSrc m a s))
  | msgSetDst m a => exact absurd h (responseOf_ne_error (exec_msgSetDst m a s))
  | msgGetPayload m => exact absurd h (responseOf_ne_error (exec_msgGetPayload m s))
  | msgGetLength m => exact absurd h (responseOf_ne_error (exec_msgGetLength m s))
  | msgEq a b => exact absurd h (responseOf_ne_error (exec_msgEq a b s))

/-- Settles O11: the three columns of `CanAnswer`. -/
theorem outcomesByOperation : Obligations.OutcomesByOperation :=
  fun _ _ => ⟨canAnswer_of_responseOf, canAnswer_of_responseOf, canAnswer_of_responseOf⟩

/-! ### VALID of a Message an operation gives -/

/-- The response of an operation that gives a Message is that Message. -/
theorem eq_msg_of_lastResponse {i : Instr} {s s' t : State} {r : Response} {m : Message}
    (hx : exec i s = complete r s') (h : exec i s = .next t) (hm : t.lastResponse = some (.ok (.msg m))) :
    r = .ok (.msg m) := by
  obtain rfl := complete_next (hx.symm.trans h)
  exact Option.some.inj hm

/-- VALID of the Message a scan gives says how the scan ended (R209, R210). -/
theorem scanMessage_valid (crc : List Byte → BitVec 32) (cov : Bool) (B : List Byte) (k : Nat) :
    (scan crc cov B k).state = .success ∧ (scanMessage (scan crc cov B k)).valid = true ∨
      (scan crc cov B k).state = .failure ∧ (scanMessage (scan crc cov B k)).valid = false := by
  rcases scan_terminal crc cov B k with hs | hf
  · exact .inl ⟨hs, by rw [scanMessage, hs]; rfl⟩
  · exact .inr ⟨hf, by rw [scanMessage, hf]; rfl⟩

/-- Settles O53: six operations give a Message, each with the VALID its own lemma says; the response of any other is of
another kind. -/
theorem validIsWrittenByRule : Obligations.ValidIsWrittenByRule := by
  intro i s t m h hm
  induction i using forall_instr with
  | msgNew id n =>
    have hr := eq_msg_of_lastResponse (exec_msgNew id n s) h hm
    rcases msgNew_cases id n with he | ⟨_, hok, hv⟩
    · cases he.symm.trans hr
    · cases hok.symm.trans hr
      exact .inl ⟨⟨id, n, rfl⟩, hv⟩
  | msgEncode id fs =>
    have hr := eq_msg_of_lastResponse (exec_msgEncode id fs s) h hm
    rcases msgEncode_cases id fs with he | ⟨_, hok, hv⟩
    · cases he.symm.trans hr
    · cases hok.symm.trans hr
      exact .inr (.inl ⟨⟨id, fs, rfl⟩, hv⟩)
  | msgSetSrc m0 a =>
    cases eq_msg_of_lastResponse (exec_msgSetSrc m0 a s) h hm
    exact .inr (.inr (.inl ⟨m0, a, rfl, updateMessage_valid rfl⟩))
  | msgSetDst m0 a =>
    cases eq_msg_of_lastResponse (exec_msgSetDst m0 a s) h hm
    exact .inr (.inr (.inr (.inl ⟨m0, a, rfl, updateMessage_valid rfl⟩)))
  | msgSetPayload m0 b =>
    have hr := eq_msg_of_lastResponse (exec_msgSetPayload m0 b s) h hm
    rcases msgSetPayload_cases m0 b s.free with he | ⟨_, hok, hv⟩
    · cases he.symm.trans hr
    · cases hok.symm.trans hr
      exact .inr (.inr (.inr (.inr (.inl ⟨m0, b, rfl, hv⟩))))
  | frameDec bytes =>
    obtain rfl := complete_next ((exec_frameDec bytes s).symm.trans h)
    cases hm
    exact .inr (.inr (.inr (.inr (.inr ⟨bytes, rfl, scanMessage_valid _ _ _ _⟩))))
  | write u buf off v =>
    have hr := eq_msg_of_lastResponse (exec_writeInstr u buf off v s) h hm
    rcases writeScalar_cases u buf off v with ⟨-, hw⟩ | hw | ⟨_, _, hw⟩ <;> cases hw.symm.trans hr
  | read u buf off =>
    have hr := eq_msg_of_lastResponse (exec_readInstr u buf off s) h hm
    rcases readScalar_cases u buf off s.free with hx | ⟨_, _, hx⟩ <;> cases hx.symm.trans hr
  | taskFromOffset n =>
    have hr := eq_msg_of_lastResponse (exec_taskFromOffset n s) h hm
    rcases taskFromOffset_cases s.params n with hx | ⟨_, hx⟩ <;> cases hx.symm.trans hr
  | msgDecode m0 ts =>
    have hr := eq_msg_of_lastResponse (exec_msgDecode m0 ts s) h hm
    rcases msgDecode_cases m0 ts s.free with hx | ⟨_, hx⟩ <;> cases hx.symm.trans hr
  | frameEnc m0 =>
    have hr := eq_msg_of_lastResponse (exec_frameEnc m0 s) h hm
    rcases encodeFrame_cases _ _ m0 s.free with hx | ⟨_, hx⟩ <;> cases hx.symm.trans hr
  | addrPack task node => cases eq_msg_of_lastResponse (exec_addrPack task node s) h hm
  | addrUnpack a => cases eq_msg_of_lastResponse (exec_addrUnpack a s) h hm
  | hdrPack src dst id => cases eq_msg_of_lastResponse (exec_hdrPack src dst id s) h hm
  | hdrUnpack w => cases eq_msg_of_lastResponse (exec_hdrUnpack w s) h hm
  | msgGetPayload m0 => cases eq_msg_of_lastResponse (exec_msgGetPayload m0 s) h hm
  | msgGetLength m0 => cases eq_msg_of_lastResponse (exec_msgGetLength m0 s) h hm
  | msgEq a b => cases eq_msg_of_lastResponse (exec_msgEq a b s) h hm

end Sys2Proof.Machine
end
